-- ==== Sys2Proof/Word.lean ====
section
/-! DEFINITION. The words of QOI-CORE: the byte, the 32-bit register and pixel word, and the Pixel record (00_scope.md R9, R10). -/

namespace Sys2Proof

/-- An unsigned 8-bit number: one channel, or one byte of the stream (R10 `u8`). -/
abbrev Byte := BitVec 8

/-- A 32-bit word: one register of a bank (R35), or one location of PIX (R51). -/
abbrev Word := BitVec 32

/-- A pixel, four channels in the order R, G, B, A (R10). Two pixels are equal exactly when all four channels are. -/
structure Pixel where
  r : Byte
  g : Byte
  b : Byte
  a : Byte
  deriving DecidableEq, Repr

end Sys2Proof
end

