-- ==== Sys2Proof/Config.lean ====
section
/-! DEFINITION. The configuration: the parameters of 00_scope.md R7 at the values the spec suggests, and the free values. -/

namespace Sys2Proof

/-- The two units of QOI-CORE that take steps (R1, R16). -/
inductive UnitName where
  | enc
  | dec
  deriving DecidableEq, Repr

namespace Config

/-- `LUT_SLOTS` (R7). -/
abbrev lutSlots : Nat := 64

/-- The hash multipliers of R, G, B, A (R7, R110). -/
abbrev hashR : Nat := 3
abbrev hashG : Nat := 5
abbrev hashB : Nat := 7
abbrev hashA : Nat := 11

/-- `RUN_MAX`, the longest run in one chunk (R7, R248). -/
abbrev runMax : Nat := 62

/-- `START_PIXEL` (R7): what `prev` holds after reset and after START. -/
def startPixel : Pixel := ⟨0, 0, 0, 255⟩

/-- What every LUT slot holds after reset and after START (R7, R116). -/
def zeroPixel : Pixel := ⟨0, 0, 0, 0⟩

/-- `TAG_RGB` (R85, D8). PRESUMED by the spec itself (G1): that RGB is 0xFE and RGBA 0xFF and not the reverse. Log entry 7. -/
def tagRgb : Byte := 0xFE

/-- `TAG_RGBA` (R85, D8, G1). Log entry 7. -/
def tagRgba : Byte := 0xFF

/-- The 2-bit tags in bits 7:6 of byte 0 (R83). -/
def tagIndex : BitVec 2 := 0b00
def tagDiff : BitVec 2 := 0b01
def tagLuma : BitVec 2 := 0b10
def tagRun : BitVec 2 := 0b11

/-- Lowest bit of each DIFF field in byte 0 (R90, D9, G2). Log entry 7. -/
abbrev diffDrBit : Nat := 4
abbrev diffDgBit : Nat := 2
abbrev diffDbBit : Nat := 0

/-- Lowest bit of each LUMA field in byte 1 (R91, D9, G3). Log entry 7. -/
abbrev lumaDrgBit : Nat := 4
abbrev lumaDbgBit : Nat := 0

/-- The biases (R88): what is added to a value to get the stored field. -/
abbrev diffBias : Int := 2
abbrev lumaDgBias : Int := 32
abbrev lumaDxBias : Int := 8

/-- `NPIX_MAX` (R7, D14): the largest pixel count a unit accepts at START, at its suggested value. Log entry 7. -/
abbrev npixMax : Nat := 4294967295

/-- `ILEN_MAX` (R7, D2): the largest input length, at its suggested value. Log entry 7. -/
abbrev ilenMax : Nat := 4294967295

/-- `HEADER_LEN` and `END_LEN` (R7; FRAME only). -/
abbrev headerLen : Nat := 14
abbrev endLen : Nat := 8

/-- `MAGIC` (R7, D24, G5; FRAME only): the ASCII letters qoif. Log entry 7. -/
def magic : List Byte := [0x71, 0x6F, 0x69, 0x66]

/-- `END_MARKER` (R130, D24, G6; FRAME only). Log entry 7. -/
def endMarker : List Byte := [0, 0, 0, 0, 0, 0, 0, 1]

/-- FREE VALUE (R42, U7 "any value"): the byte that offset `a` of a unit's STR holds while nothing has written it. Log entry 3. -/
opaque powerOnByte : UnitName → Nat → Byte

/-- FREE VALUE (R42, U7 "any value"): the word that index `a` of a unit's PIX holds while nothing has written it. Log entry 3. -/
opaque powerOnWord : UnitName → Nat → Word

/-- FREE VALUE: what a 32-bit register shows of a number that does not fit 32 bits (only OLEN of ENC can meet one; the spec states no
value there). Log entry 6. -/
opaque overwideRead : Nat → Word

end Config

end Sys2Proof
end

