-- ==== Sys2Proof/Syntax.lean ====
section
/-! DEFINITION. The instructions of QOI-CORE: the six chunk kinds (30_encoding.md R80), one constructor per row of opcode_table.json,
with the unbiased operands of the chunk notation (00_scope.md R15, 30_encoding.md R100). -/

namespace Sys2Proof

/-- A chunk. Operands are the unbiased field values (R100); their ranges are checked in WellFormed. -/
inductive Instr where
  /-- `RGB r,g,b` (R93, R175). -/
  | rgb (r g b : Byte)
  /-- `RGBA r,g,b,a` (R94, R176). -/
  | rgba (r g b a : Byte)
  /-- `INDEX k` (R89, R177): a 6-bit slot number. -/
  | index (k : BitVec 6)
  /-- `DIFF dr,dg,db` (R90, R180). -/
  | diff (dr dg db : Int)
  /-- `LUMA dg,drg,dbg` (R91, R181): `drg = dr - dg`, `dbg = db - dg` (R101). -/
  | luma (dg drg dbg : Int)
  /-- `RUN n` (R92, R178). -/
  | run (n : Nat)
  deriving DecidableEq, Repr

end Sys2Proof
end

