-- ==== Sys2Proof/WellFormed.lean ====
section
/-! DEFINITION. Which chunks have an encoding: the operand ranges of 30_encoding.md R88 and R100, which are also the preconditions of
the packers (42_encoder.md R154). -/

namespace Sys2Proof

/-- `in(v, lo, hi)` on mathematical integers (00_scope.md R11). -/
abbrev inRange (v lo hi : Int) : Bool := decide (lo ≤ v ∧ v ≤ hi)

/-- DIFF operands: each in -2..1 (R88). -/
def diffInRange (dr dg db : Int) : Bool :=
  inRange dr (-2) 1 && inRange dg (-2) 1 && inRange db (-2) 1

/-- LUMA operands: dg in -32..31, drg and dbg in -8..7 (R88). -/
def lumaInRange (dg drg dbg : Int) : Bool :=
  inRange dg (-32) 31 && inRange drg (-8) 7 && inRange dbg (-8) 7

/-- RUN operand: 1..62 (R88, R92). -/
def runInRange (n : Nat) : Bool := decide (1 ≤ n ∧ n ≤ Config.runMax)

/-- A chunk is well formed when every operand is inside its range; "an operand outside its range has no encoding" (R100). -/
def Instr.wellFormed : Instr → Bool
  | .rgb _ _ _ => true
  | .rgba _ _ _ _ => true
  | .index _ => true
  | .diff dr dg db => diffInRange dr dg db
  | .luma dg drg dbg => lumaInRange dg drg dbg
  | .run n => runInRange n

end Sys2Proof
end

