-- ==== Sys2Proof/Decode.lean ====
section
/-! DEFINITION. The chunk decoder, total on any bytes, the length function, and after them the encoder, both written from the field
layouts of 30_encoding.md R82 to R94; and the opcode table of R96 and R102 as data. -/

namespace Sys2Proof

/-- Bits 7:6 of byte 0 (R83). -/
def tagBits (b0 : Byte) : BitVec 2 := b0.extractLsb' 6 2

/-- `chunk_len` (R87): the length of a chunk, from byte 0 alone. -/
def chunkLen (b0 : Byte) : Nat :=
  if b0 = Config.tagRgb then 4
  else if b0 = Config.tagRgba then 5
  else if tagBits b0 = Config.tagLuma then 2
  else 1

/-- Why bytes are not a chunk. No value of any byte is illegal (R97): only bytes that run out are rejected. -/
inductive DecodeError where
  /-- There is no first byte. -/
  | noByte
  /-- The first byte asks for `need` bytes and only `got` are there. -/
  | cutShort (need got : Nat)
  deriving DecidableEq, Repr

/-- The operands of a DIFF byte (R90): each field less its bias. -/
def decodeDiff (b0 : Byte) : Instr :=
  .diff ((b0.extractLsb' Config.diffDrBit 2).toNat - Config.diffBias)
    ((b0.extractLsb' Config.diffDgBit 2).toNat - Config.diffBias)
    ((b0.extractLsb' Config.diffDbBit 2).toNat - Config.diffBias)

/-- The operands of the two LUMA bytes (R91). -/
def decodeLuma (b0 b1 : Byte) : Instr :=
  .luma ((b0.extractLsb' 0 6).toNat - Config.lumaDgBias)
    ((b1.extractLsb' Config.lumaDrgBit 4).toNat - Config.lumaDxBias)
    ((b1.extractLsb' Config.lumaDbgBit 4).toNat - Config.lumaDxBias)

/-- Decode the chunk at the head of a byte string, and give the bytes after it. The full-byte tags are tested first, then bits 7:6, in
the order of R86 and R174; with the full-byte tags excluded, tag `11` is RUN 1..62 (R92). -/
def decode : List Byte → Except DecodeError (Instr × List Byte)
  | [] => .error .noByte
  | b0 :: rest =>
    if b0 = Config.tagRgb then
      match rest with
      | r :: g :: b :: rest' => .ok (.rgb r g b, rest')
      | _ => .error (.cutShort 4 (rest.length + 1))
    else if b0 = Config.tagRgba then
      match rest with
      | r :: g :: b :: a :: rest' => .ok (.rgba r g b a, rest')
      | _ => .error (.cutShort 5 (rest.length + 1))
    else if tagBits b0 = Config.tagIndex then .ok (.index (b0.extractLsb' 0 6), rest)
    else if tagBits b0 = Config.tagDiff then .ok (decodeDiff b0, rest)
    else if tagBits b0 = Config.tagLuma then
      match rest with
      | b1 :: rest' => .ok (decodeLuma b0 b1, rest')
      | [] => .error (.cutShort 2 1)
    else .ok (.run ((b0.extractLsb' 0 6).toNat + 1), rest)

/-! The encoder. -/

/-- The 2-bit tag in bits 7:6 of a byte that is otherwise zero (R82). -/
def tagByte (t : BitVec 2) : Byte := t.setWidth 8 <<< 6

/-- A value plus its bias, as the low bits of a byte (R88). -/
def biased (bias v : Int) : Byte := BitVec.ofInt 8 (v + bias)

/-- The bytes of a chunk, first byte of the stream first (R55, and R89 to R94 for the six kinds). It means something on a well-formed
chunk only; `pack` is the guarded form. -/
def encode : Instr → List Byte
  | .rgb r g b => [Config.tagRgb, r, g, b]
  | .rgba r g b a => [Config.tagRgba, r, g, b, a]
  | .index k => [tagByte Config.tagIndex ||| k.setWidth 8]
  | .diff dr dg db =>
    [tagByte Config.tagDiff ||| biased Config.diffBias dr <<< Config.diffDrBit
      ||| biased Config.diffBias dg <<< Config.diffDgBit ||| biased Config.diffBias db <<< Config.diffDbBit]
  | .luma dg drg dbg =>
    [tagByte Config.tagLuma ||| biased Config.lumaDgBias dg,
      biased Config.lumaDxBias drg <<< Config.lumaDrgBit ||| biased Config.lumaDxBias dbg <<< Config.lumaDbgBit]
  | .run n => [tagByte Config.tagRun ||| BitVec.ofNat 8 (n - 1)]

/-- The packers of R154 as one partial function: nothing for an operand outside its range, which is the cause of InvalidDelta (R206). -/
def pack (i : Instr) : Option (List Byte) := if i.wellFormed then some (encode i) else none

/-- The length in bytes of each chunk kind (R81, R184). -/
def Instr.length : Instr → Nat
  | .rgb _ _ _ => 4
  | .rgba _ _ _ _ => 5
  | .index _ => 1
  | .diff _ _ _ => 1
  | .luma _ _ _ => 2
  | .run _ => 1

/-- The mnemonic of each chunk kind, as opcode_table.json spells it (R100). -/
def Instr.mnemonic : Instr → String
  | .rgb _ _ _ => "RGB"
  | .rgba _ _ _ _ => "RGBA"
  | .index _ => "INDEX"
  | .diff _ _ _ => "DIFF"
  | .luma _ _ _ => "LUMA"
  | .run _ => "RUN"

/-! The opcode table as data. -/

/-- One row of opcode_table.json (R102): `pattern` and `mask` apply to byte 0. -/
structure OpcodeRow where
  mnemonic : String
  pattern : Byte
  mask : Byte
  length : Nat
  deriving DecidableEq, Repr

/-- The six rows in priority order: first match wins (R96, R102). -/
def opcodeRows : List OpcodeRow :=
  [⟨"RGB", 0xFE, 0xFF, 4⟩, ⟨"RGBA", 0xFF, 0xFF, 5⟩, ⟨"INDEX", 0x00, 0xC0, 1⟩, ⟨"DIFF", 0x40, 0xC0, 1⟩, ⟨"LUMA", 0x80, 0xC0, 2⟩,
    ⟨"RUN", 0xC0, 0xC0, 1⟩]

/-- The row a first byte selects (R102). -/
def rowOf (b0 : Byte) : Option OpcodeRow := opcodeRows.find? fun row => b0 &&& row.mask == row.pattern

/-! The opcode table's words. -/

/-- The five bytes (the longest chunk) of an instruction whose bits are `w`, bit 0 the least significant bit of the first byte, with
every bit above `nbits` zero. -/
def tableBytes (nbits w : Nat) : List Byte :=
  let v := w % 2 ^ nbits
  [BitVec.ofNat 8 v, BitVec.ofNat 8 (v / 256), BitVec.ofNat 8 (v / 65536), BitVec.ofNat 8 (v / 16777216),
    BitVec.ofNat 8 (v / 4294967296)]

/-- The instruction the decoder reads from those bytes. -/
def decodeTableWord (nbits w : Nat) : Option Instr :=
  match decode (tableBytes nbits w) with
  | .ok (i, _) => some i
  | .error _ => none

end Sys2Proof
end

