-- ==== Sys2Proof/Machine/State.lean ====
section
/-! DEFINITION. The state of QOI-CORE as plain data: the two units with their working registers, cursors, status, register banks and
buffers (10_state.md R20 to R38), the agenda of turns, the ways a step can stop, and the state after reset (R42, R230). -/

namespace Sys2Proof.Machine

/-- A memory of cells of one kind, by address, as a list of (address, cell) pairs; `Mem Byte` is a list of `Host.Cell`. An address that
is not listed holds no written value; what a unit reads there is a free value (R42, U7; log entry 3). -/
abbrev Mem (α : Type) := List (Nat × α)

/-- The canonical form of a memory: addresses strictly rising, so each address is listed at most once. -/
abbrev Memory.wf {α : Type} (m : Mem α) : Prop := m.Pairwise fun x y => x.1 < y.1

/-- The colour cache: 64 slots of one pixel, "a plain fixed-length array of Pixel with direct indexing" (R23, R25, R26). -/
abbrev Lut := Vector Pixel Config.lutSlots

/-- `status` (R32). -/
inductive Status where
  /-- Initialised, never started since reset. -/
  | idle
  /-- An invocation is running; steps are enabled. -/
  | busy
  /-- The last invocation completed; its output is valid. -/
  | done
  /-- The last invocation failed; its output is void. -/
  | fault
  deriving DecidableEq, Repr

/-- The named failures (R200, R201). Codes 6 and 7 do not exist. -/
inductive FaultCode where
  /-- Code 0. -/
  | noFault
  /-- Code 1, raised by FRAME only (R202). -/
  | invalidHeader
  /-- Code 2, raised at START and by FRAME (R203). -/
  | invalidDimensions
  /-- Code 3, raised by a DEC step and by FILE.DECODE (R204). -/
  | truncatedStream
  /-- Code 4, raised by a DEC step and by FILE.ENCODE (R205). -/
  | shapeMismatch
  /-- Code 5, raised by the ENC packers; no input reaches it (R206). -/
  | invalidDelta
  deriving DecidableEq, Repr

/-- The registers of a bank, by name (R35). -/
inductive Reg where
  | ctrl
  | status
  | fault
  | npix
  | ilen
  | olen
  | cursor
  | finfo
  deriving DecidableEq, Repr

/-- The encoder unit (R20 to R23, R27, R28, R32, R33, R37), with its input buffer PIX and its output buffer STR (R39). -/
structure EncUnit where
  /-- R21. -/
  prev : Pixel
  /-- R22: 6 bits; 0..61 between steps of an invocation (C4). -/
  run : BitVec 6
  /-- R23. -/
  lut : Lut
  /-- R27: the next pixel ENC reads. -/
  i : Nat
  /-- R28: bytes appended so far. -/
  olen : Nat
  /-- R32. -/
  status : Status
  /-- R33. -/
  fault : FaultCode
  /-- R33: `enc.i` at the moment of a step fault, else 0. -/
  finfo : Nat
  /-- R35, R37: register NPIX. -/
  npix : Word
  /-- R51: the input pixels. -/
  pix : Mem Word
  /-- R52: the output bytes. -/
  str : Mem Byte
  deriving DecidableEq, Repr

/-- The decoder unit (R20, R24, R25, R29, R30, R32, R33, R37), with its input buffer STR and its output buffer PIX (R39). -/
structure DecUnit where
  /-- R24. -/
  prev : Pixel
  /-- R25. -/
  lut : Lut
  /-- R29: offset of the next chunk's first byte. -/
  ip : Nat
  /-- R30: pixels produced so far. -/
  op : Nat
  /-- R32. -/
  status : Status
  /-- R33. -/
  fault : FaultCode
  /-- R33: `dec.ip` at the moment of a step fault, else 0. -/
  finfo : Nat
  /-- R35, R37: register NPIX. -/
  npix : Word
  /-- R35, R37: register ILEN. -/
  ilen : Word
  /-- R52: the input bytes. -/
  str : Mem Byte
  /-- R51: the output pixels. -/
  pix : Mem Word
  deriving DecidableEq, Repr

/-- Whose turn it is, and for the host what it does: one unit's step (R16), a hardware reset (R230), or a host action that writes
(R236). Reads by the host change nothing and are functions of the state. -/
inductive Turn where
  /-- ENC takes its next step, if one is enabled. -/
  | encStep
  /-- DEC takes its next step, if one is enabled. -/
  | decStep
  /-- The host writes a register of a unit's bank. -/
  | writeReg (u : UnitName) (r : Reg) (v : Word)
  /-- The host writes a pixel word of ENC's input buffer. -/
  | loadPix (a : Nat) (w : Word)
  /-- The host writes a byte of DEC's input buffer. -/
  | loadStr (a : Nat) (b : Byte)
  /-- Reset of both units. -/
  | hardwareReset
  deriving DecidableEq, Repr

/-- The whole machine. `agenda` is the MODEL's own field (DESIGN CHOICE, log entry 1): which agent moves next, so that every
interleaving of ENC, DEC and the host (R219) is a value of it. -/
structure State where
  enc : EncUnit
  dec : DecUnit
  agenda : List Turn
  deriving DecidableEq, Repr

/-- The ways the machine stops. A failure of 60_exceptions.md is NOT one of them: its entry (R210) is a next state. -/
inductive Fault where
  /-- Raised by the turns `loadPix` and `loadStr` for an address at or beyond NPIX_MAX or ILEN_MAX, which no invocation can have (R51,
  R52). Safe: the model stops. Log entry 13. -/
  | noSuchAddress
  deriving DecidableEq, Repr

/-- What the model refuses to do. -/
inductive Refusal where
  /-- An instruction without a meaning, by its mnemonic. No arm of exec uses it. -/
  | notModelled (mnemonic : String)
  /-- Raised by the turns `loadPix` and `loadStr` while the unit is BUSY: "the host must not write the input buffer" (R71, U3: refuse).
  An assumption on the host, unsafe: log entry 4. -/
  | busyBufferWrite
  deriving DecidableEq, Repr

/-- What a step answers. -/
abbrev Answer := Host.Outcome State Fault Refusal

/-- The cleared colour cache (R116). -/
def Lut.clear : Lut := Vector.replicate Config.lutSlots Config.zeroPixel

/-- ENC after reset (R42, R230). The buffers are not part of the reset (R231); here nothing has written them yet. -/
def EncUnit.reset : EncUnit where
  prev := Config.startPixel
  run := 0
  lut := Lut.clear
  i := 0
  olen := 0
  status := .idle
  fault := .noFault
  finfo := 0
  npix := 0
  pix := []
  str := []

/-- DEC after reset (R42, R230). -/
def DecUnit.reset : DecUnit where
  prev := Config.startPixel
  lut := Lut.clear
  ip := 0
  op := 0
  status := .idle
  fault := .noFault
  finfo := 0
  npix := 0
  ilen := 0
  str := []
  pix := []

/-- The machine right after a hardware reset at power-on: both units in IDLE (R230, R232), nothing in the buffers, no turn planned. -/
def State.reset : State where
  enc := EncUnit.reset
  dec := DecUnit.reset
  agenda := []

end Sys2Proof.Machine
end

