-- ==== Sys2Proof/Machine/Operands.lean ====
section
/-! DEFINITION. Operands: the channel arithmetic of 00_scope.md R11, the pixel word of 20_memory.md R53, the slot number of
40_hash_lut.md R110, and the pixel a chunk's operands stand for (43_decoder.md R175 to R181). -/

namespace Sys2Proof.Machine

/-- `s8(v)` (R11): the signed reading of the low 8 bits of an integer. -/
def s8 (v : Int) : Int := let t := v % 256; if t < 128 then t else t - 256

/-- `sub8(a, b)` (R11, R148): the channel difference modulo 256 read as signed. -/
def sub8 (a b : Byte) : Int := s8 (a.toNat - b.toNat)

/-- `add8(a, d)` (R11): channel addition modulo 256. -/
def add8 (a : Byte) (d : Int) : Byte := BitVec.ofInt 8 (a.toNat + d)

/-- `word(p)` (R53): R in bits 31:24, G in 23:16, B in 15:8, A in 7:0. -/
def wordOfPixel (p : Pixel) : Word := p.r ++ p.g ++ p.b ++ p.a

/-- `pixel(w)` (R53), the inverse of `word`. -/
def pixelOfWord (w : Word) : Pixel :=
  ⟨w.extractLsb' 24 8, w.extractLsb' 16 8, w.extractLsb' 8 8, w.extractLsb' 0 8⟩

/-- HASH (R110): `(3R + 5G + 7B + 11A) mod 64`, the sum formed without loss. -/
def hash (p : Pixel) : BitVec 6 :=
  BitVec.ofNat 6
    ((p.r.toNat * Config.hashR + p.g.toNat * Config.hashG + p.b.toNat * Config.hashB + p.a.toNat * Config.hashA) % Config.lutSlots)

/-- The pixel of an RGB chunk (R175): its bytes, and the alpha of `prev`. -/
def rgbPixel (prev : Pixel) (r g b : Byte) : Pixel := ⟨r, g, b, prev.a⟩

/-- The pixel of a DIFF chunk (R180): each colour channel plus its delta modulo 256, and the alpha of `prev`. -/
def diffPixel (prev : Pixel) (dr dg db : Int) : Pixel := ⟨add8 prev.r dr, add8 prev.g dg, add8 prev.b db, prev.a⟩

/-- The pixel of a LUMA chunk (R181): `dr = dg + drg` and `db = dg + dbg` as integers, then as DIFF. -/
def lumaPixel (prev : Pixel) (dg drg dbg : Int) : Pixel := diffPixel prev (dg + drg) dg (dg + dbg)

end Sys2Proof.Machine
end

