-- ==== Sys2Proof/Machine/Flags.lean ====
section
/-! DEFINITION. The flags of QOI-CORE. There are no condition codes (10_state.md R34); what a unit shows is `status` and `fault`: their
bits (R32, R35, R201), the class of a failure (R207), and the one flag computation of a step, the completion test (R157, R187). -/

namespace Sys2Proof.Machine

/-- STATUS bits 1:0 (R32): 0 IDLE, 1 BUSY, 2 DONE, 3 FAULT. -/
def Status.bits : Status → BitVec 2
  | .idle => 0
  | .busy => 1
  | .done => 2
  | .fault => 3

/-- FAULT bits 2:0 (R201): codes 0 to 5. -/
def FaultCode.bits : FaultCode → BitVec 3
  | .noFault => 0
  | .invalidHeader => 1
  | .invalidDimensions => 2
  | .truncatedStream => 3
  | .shapeMismatch => 4
  | .invalidDelta => 5

/-- The two classes of failure (R207). -/
inductive FaultClass where
  | badInputData
  | corruptInternalState
  deriving DecidableEq, Repr

/-- Codes 1 to 4 are bad input data, code 5 is impossible internal state, code 0 is no failure (R207). -/
def FaultCode.faultClass : FaultCode → Option FaultClass
  | .noFault => none
  | .invalidDelta => some .corruptInternalState
  | _ => some .badInputData

/-- `status` at the end of a step whose cursor becomes `cursor`: DONE when it is `n`, else as before (R157, R187). -/
def completion (cursor n : Nat) (status : Status) : Status := if cursor = n then .done else status

end Sys2Proof.Machine
end

