-- ==== Sys2Proof/Machine/Ops.lean ====
section
/-! DEFINITION. The named operations over memory, the LUT and the units that the meanings are built from: PixRead, PixWrite, StrRead,
StrAppend (00_scope.md R13), LUT.READ, WRITE, CLEAR, HIT (40_hash_lut.md), fault entry (60_exceptions.md R210) and the only ways out of
FAULT, START and RESET (R212; 70_reset_and_hazards.md R230, R233), DEC's fetch (43_decoder.md R173) and the end of a DEC step (R183). -/

namespace Sys2Proof.Machine

/-! Memory. -/

/-- The written value at an address, if any. -/
def Memory.read? {α : Type} : Mem α → Nat → Option α
  | [], _ => none
  | (k, v) :: m, a => if a = k then some v else Memory.read? m a

/-- Write one cell, keeping the addresses strictly rising. -/
def Memory.write {α : Type} : Mem α → Nat → α → Mem α
  | [], a, v => [(a, v)]
  | (k, w) :: m, a, v =>
    if a < k then (a, v) :: (k, w) :: m
    else if a = k then (a, v) :: m
    else (k, w) :: Memory.write m a v

/-- Write `n` copies of one value at consecutive addresses from `a`, lowest first. -/
def Memory.fill {α : Type} (m : Mem α) (a : Nat) : Nat → α → Mem α
  | 0, _ => m
  | n + 1, v => Memory.write (Memory.fill m a n v) (a + n) v

/-- Write a list of values at consecutive addresses from `a`, lowest first. -/
def Memory.writeList {α : Type} : Mem α → Nat → List α → Mem α
  | m, _, [] => m
  | m, a, v :: vs => Memory.writeList (Memory.write m a v) (a + 1) vs

/-! The LUT. -/

/-- LUT.READ (R113). -/
def Lut.read (lut : Lut) (k : BitVec 6) : Pixel := lut[k.toNat]'k.isLt

/-- LUT.WRITE (R114): the pixel goes to the slot its hash names and nowhere else. -/
def Lut.write (lut : Lut) (p : Pixel) : Lut := lut.set (hash p).toNat p (hash p).isLt

/-- LUT.HIT (R117). -/
def Lut.hit (lut : Lut) (p : Pixel) : Bool := Lut.read lut (hash p) = p

/-! The buffers of ENC. -/

/-- `PixRead(i)` of ENC (R13); a word nothing has written is a free value (U7, log entry 3). -/
def EncUnit.pixRead (e : EncUnit) (i : Nat) : Pixel :=
  pixelOfWord ((Memory.read? e.pix i).getD (Config.powerOnWord .enc i))

/-- The byte at offset `a` of ENC's output, as the host reads it. -/
def EncUnit.strRead (e : EncUnit) (a : Nat) : Byte :=
  (Memory.read? e.str a).getD (Config.powerOnByte .enc a)

/-- `StrAppend(b)` (R13). -/
def EncUnit.strAppend (e : EncUnit) (b : Byte) : EncUnit :=
  { e with str := Memory.write e.str e.olen b, olen := e.olen + 1 }

/-- Append bytes in order, lowest offset first (R55, R141). -/
def EncUnit.appendBytes : EncUnit → List Byte → EncUnit
  | e, [] => e
  | e, b :: bs => (e.strAppend b).appendBytes bs

/-! The buffers of DEC. -/

/-- `StrRead(a)` of DEC (R13); a byte nothing has written is a free value (U7, log entry 3). -/
def DecUnit.strRead (d : DecUnit) (a : Nat) : Byte :=
  (Memory.read? d.str a).getD (Config.powerOnByte .dec a)

/-- `n` bytes of DEC's input at consecutive offsets from `a`. -/
def DecUnit.strBytes (d : DecUnit) : Nat → Nat → List Byte
  | _, 0 => []
  | a, n + 1 => d.strRead a :: d.strBytes (a + 1) n

/-- The pixel at index `i` of DEC's output, as the host reads it. -/
def DecUnit.pixRead (d : DecUnit) (i : Nat) : Pixel :=
  pixelOfWord ((Memory.read? d.pix i).getD (Config.powerOnWord .dec i))

/-! Fault entry, and the two commands that leave FAULT. -/

/-- `raise` in an ENC step (R210): applied to the unit as it was before the step, so every write of the step is discarded. -/
def EncUnit.raise (e : EncUnit) (code : FaultCode) (info : Nat) : EncUnit :=
  { e with status := .fault, fault := code, finfo := info }

/-- `raise` in a DEC step (R210). -/
def DecUnit.raise (d : DecUnit) (code : FaultCode) (info : Nat) : DecUnit :=
  { d with status := .fault, fault := code, finfo := info }

/-- The START check (R203, R213): NPIX is 0 or above NPIX_MAX. -/
def startRejects (npixMax : Nat) (npix : Word) : Bool := npix.toNat = 0 || decide (npixMax < npix.toNat)

/-- START of ENC (R233): ignored while BUSY; else `fault` and `finfo` are cleared, and either the check fails or the working state is
initialised and the unit is BUSY. -/
def EncUnit.start (npixMax : Nat) (e : EncUnit) : EncUnit :=
  if e.status = .busy then e
  else if startRejects npixMax e.npix then { e with status := .fault, fault := .invalidDimensions, finfo := 0 }
  else
    { e with
      prev := Config.startPixel, lut := Lut.clear, run := 0, i := 0, olen := 0
      status := .busy, fault := .noFault, finfo := 0 }

/-- START of DEC (R233). -/
def DecUnit.start (npixMax : Nat) (d : DecUnit) : DecUnit :=
  if d.status = .busy then d
  else if startRejects npixMax d.npix then { d with status := .fault, fault := .invalidDimensions, finfo := 0 }
  else
    { d with
      prev := Config.startPixel, lut := Lut.clear, ip := 0, op := 0
      status := .busy, fault := .noFault, finfo := 0 }

/-- RESET of ENC (R230), whatever it was doing; the buffers are not touched (R231). -/
def EncUnit.resetUnit (e : EncUnit) : EncUnit := { EncUnit.reset with pix := e.pix, str := e.str }

/-- RESET of DEC (R230, R231). -/
def DecUnit.resetUnit (d : DecUnit) : DecUnit := { DecUnit.reset with str := d.str, pix := d.pix }

/-! The DEC step. -/

/-- Cache pre-write (R172): before the chunk is looked at, `prev` goes into its slot. -/
def DecUnit.preWrite (d : DecUnit) : DecUnit := { d with lut := Lut.write d.lut d.prev }

/-- Fetch (R173): the chunk at `ip`, or nothing when no byte is left or the chunk reaches past ILEN (TruncatedStream). Only the bytes of
the chunk are read (R185). -/
def DecUnit.fetch (d : DecUnit) : Option Instr :=
  if d.ilen.toNat ≤ d.ip then none
  else
    let len := chunkLen (d.strRead d.ip)
    if d.ilen.toNat < d.ip + len then none
    else
      match decode (d.strBytes d.ip len) with
      | .ok (i, _) => some i
      | .error _ => none

/-- The end of a DEC step (R183, R186, R187): `cnt` copies of the pixel to PIX from `op`, `prev`, the two cursors, and DONE when the
output is complete. -/
def DecUnit.finish (d : DecUnit) (px : Pixel) (cnt len : Nat) : DecUnit :=
  { d with
    pix := Memory.fill d.pix d.op cnt (wordOfPixel px)
    prev := px
    op := d.op + cnt
    ip := d.ip + len
    status := completion (d.op + cnt) d.npix.toNat d.status }

/-- A whole DEC step after the fetch (R171) for a chunk of `len` bytes that yields `cnt` pixels: the pre-write, the pixel computed from
the unit after it, and the end of the step. -/
def decProduce (px : DecUnit → Pixel) (cnt len : Nat) (s : State) : Answer :=
  .next { s with dec := s.dec.preWrite.finish (px s.dec.preWrite) cnt len }

/-- A DEC step that raises (R14, R210): nothing of the step remains but the fault. -/
def decRaise (code : FaultCode) (s : State) : Answer := .next { s with dec := s.dec.raise code s.dec.ip }

end Sys2Proof.Machine
end

