-- ==== Sys2Proof/Machine/CacheChunk.lean ====
section
/-! DEFINITION. The meaning of the chunk that names a slot of the colour cache: INDEX (43_decoder.md R177). -/

namespace Sys2Proof.Machine

/-- INDEX (R177): the slot's pixel, read after the pre-write of this step (R242); one pixel, one byte. -/
def execIndex (k : BitVec 6) (s : State) : Answer := decProduce (fun d => Lut.read d.lut k) 1 1 s

end Sys2Proof.Machine
end

