-- ==== Sys2Proof/Machine/DeltaChunks.lean ====
section
/-! DEFINITION. The meanings of the chunks that carry channel differences: DIFF and LUMA (43_decoder.md R180, R181). -/

namespace Sys2Proof.Machine

/-- DIFF (R180): `prev` plus the deltas; one pixel, one byte. -/
def execDiff (dr dg db : Int) (s : State) : Answer := decProduce (fun d => diffPixel d.prev dr dg db) 1 1 s

/-- LUMA (R181): `prev` plus the deltas rebuilt from dg; one pixel, two bytes. -/
def execLuma (dg drg dbg : Int) (s : State) : Answer := decProduce (fun d => lumaPixel d.prev dg drg dbg) 1 2 s

end Sys2Proof.Machine
end

