-- ==== Sys2Proof/Machine/RawChunks.lean ====
section
/-! DEFINITION. The meanings of the chunks that carry channels as raw bytes: RGB and RGBA (43_decoder.md R175, R176). -/

namespace Sys2Proof.Machine

/-- RGB (R175): the three bytes, alpha of `prev`; one pixel, four bytes. -/
def execRgb (r g b : Byte) (s : State) : Answer := decProduce (fun d => rgbPixel d.prev r g b) 1 4 s

/-- RGBA (R176): the four bytes; one pixel, five bytes. -/
def execRgba (r g b a : Byte) (s : State) : Answer := decProduce (fun _ => ⟨r, g, b, a⟩) 1 5 s

end Sys2Proof.Machine
end

