-- ==== Sys2Proof/Machine/RunChunk.lean ====
section
/-! DEFINITION. The meaning of the chunk that repeats the previous pixel: RUN (43_decoder.md R178, R179). -/

namespace Sys2Proof.Machine

/-- RUN (R178): `n` copies of `prev`, one byte; ShapeMismatch when they do not fit, with none of them written (R179). -/
def execRun (n : Nat) (s : State) : Answer :=
  if s.dec.npix.toNat < s.dec.op + n then decRaise .shapeMismatch s
  else decProduce (fun d => d.prev) n 1 s

end Sys2Proof.Machine
end

