-- ==== Sys2Proof/Machine/Encoder.lean ====
section
/-! DEFINITION. The encoder unit: the pure selection of a chunk kind, the guarded emission, and the ENC step (42_encoder.md R141 to
R157), selection kept apart from packing as R142 asks. -/

namespace Sys2Proof.Machine

/-- What the encoder chooses for a pixel (R142): one case per chunk kind. -/
inductive Selection where
  | run
  | index (k : BitVec 6)
  | diff (dr dg db : Int)
  | luma (dg drg dbg : Int)
  | rgb
  | rgba
  deriving DecidableEq, Repr

/-- The DIFF condition on the deltas (R149). -/
def fitsDiff (dr dg db : Int) : Bool :=
  decide (-2 ≤ dr ∧ dr ≤ 1) && decide (-2 ≤ dg ∧ dg ≤ 1) && decide (-2 ≤ db ∧ db ≤ 1)

/-- The LUMA condition on the deltas (R150); the second-order differences do not wrap (R148). -/
def fitsLuma (dr dg db : Int) : Bool :=
  decide (-32 ≤ dg ∧ dg ≤ 31) && decide (-8 ≤ dr - dg ∧ dr - dg ≤ 7) && decide (-8 ≤ db - dg ∧ db - dg ≤ 7)

/-- The choice among DIFF, LUMA and RGB for a pixel whose alpha is that of `prev` (R148 to R151). -/
def selectDelta (prev px : Pixel) : Selection :=
  let dr := sub8 px.r prev.r
  let dg := sub8 px.g prev.g
  let db := sub8 px.b prev.b
  if fitsDiff dr dg db then .diff dr dg db
  else if fitsLuma dr dg db then .luma dg (dr - dg) (db - dg)
  else .rgb

/-- Selection priority (R142): run, index, diff, luma, RGB, RGBA; the first whose condition holds. -/
def select (prev : Pixel) (lut : Lut) (px : Pixel) : Selection :=
  if px = prev then .run
  else if Lut.hit lut px then .index (hash px)
  else if px.a = prev.a then selectDelta prev px
  else .rgba

/-- The chunk of a selection for the pixel `px`; a pixel absorbed into a run has none of its own (R142). -/
def Selection.chunk? (px : Pixel) : Selection → Option Instr
  | .run => none
  | .index k => some (.index k)
  | .diff dr dg db => some (.diff dr dg db)
  | .luma dg drg dbg => some (.luma dg drg dbg)
  | .rgb => some (.rgb px.r px.g px.b)
  | .rgba => some (.rgba px.r px.g px.b px.a)

/-- `emit` (R141, R154): the packed bytes are appended; nothing when an operand is outside its range (InvalidDelta, R206). -/
def EncUnit.emit (e : EncUnit) (i : Instr) : Option EncUnit := (pack i).map e.appendBytes

/-- Emit the pending run and clear the counter (R144). -/
def EncUnit.flushRun (e : EncUnit) : Option EncUnit := (e.emit (.run e.run.toNat)).map fun e' => { e' with run := 0 }

/-- The run branch (R143): count the pixel, and flush at 62 or at the last pixel. -/
def EncUnit.absorb (e : EncUnit) (last : Bool) : Option EncUnit :=
  let e' := { e with run := e.run + 1 }
  if e'.run.toNat = Config.runMax ∨ last = true then e'.flushRun else some e'

/-- Broken run (R145): a pending run is flushed before the pixel's own chunk. -/
def EncUnit.breakRun (e : EncUnit) : Option EncUnit := if e.run = 0 then some e else e.flushRun

/-- LUT.WRITE of the current pixel on an index miss (R146). -/
def EncUnit.lutWrite (e : EncUnit) (px : Pixel) : EncUnit := { e with lut := Lut.write e.lut px }

/-- The branches of the ENC step (R141), up to and without the common end: nothing when a packer refuses. -/
def EncUnit.process (e : EncUnit) (px : Pixel) (last : Bool) : Option EncUnit :=
  match select e.prev e.lut px with
  | .run => e.absorb last
  | .index k => e.breakRun.bind fun e' => e'.emit (.index k)
  | .diff dr dg db => e.breakRun.bind fun e' => (e'.lutWrite px).emit (.diff dr dg db)
  | .luma dg drg dbg => e.breakRun.bind fun e' => (e'.lutWrite px).emit (.luma dg drg dbg)
  | .rgb => e.breakRun.bind fun e' => (e'.lutWrite px).emit (.rgb px.r px.g px.b)
  | .rgba => e.breakRun.bind fun e' => (e'.lutWrite px).emit (.rgba px.r px.g px.b px.a)

/-- The end of the ENC step (R156, R157). -/
def EncUnit.finish (e : EncUnit) (px : Pixel) : EncUnit :=
  { e with prev := px, i := e.i + 1, status := completion (e.i + 1) e.npix.toNat e.status }

/-- ENC.STEP (R141), for a BUSY unit: one pixel; InvalidDelta with `finfo = enc.i` when a packer refuses (R154, R201). -/
def EncUnit.step (e : EncUnit) : EncUnit :=
  match e.process (e.pixRead e.i) (decide (e.i + 1 = e.npix.toNat)) with
  | some e' => e'.finish (e.pixRead e.i)
  | none => e.raise .invalidDelta e.i

end Sys2Proof.Machine
end

