-- ==== Sys2Proof/Machine/HostPort.lean ====
section
/-! DEFINITION. The host's side of a unit: the register banks (10_state.md R35 to R38), the commands of CTRL (R36), the loading of input
buffers and the reading of results (70_reset_and_hazards.md R236, R237). -/

namespace Sys2Proof.Machine

/-- The number of a register in its bank (R35). -/
def Reg.number : Reg → BitVec 3
  | .ctrl => 0
  | .status => 1
  | .fault => 2
  | .npix => 3
  | .ilen => 4
  | .olen => 5
  | .cursor => 6
  | .finfo => 7

/-- The register with a number (R35). -/
def Reg.ofNumber (n : BitVec 3) : Reg :=
  if n = 0 then .ctrl
  else if n = 1 then .status
  else if n = 2 then .fault
  else if n = 3 then .npix
  else if n = 4 then .ilen
  else if n = 5 then .olen
  else if n = 6 then .cursor
  else .finfo

/-- A natural number on a 32-bit register. A number that needs more bits is not covered by any rule: a free value (log entry 6). -/
def natReg (n : Nat) : Word := if n < 2 ^ 32 then BitVec.ofNat 32 n else Config.overwideRead n

/-- A read of ENC's bank (R35): no side effect. -/
def EncUnit.readReg (e : EncUnit) : Reg → Word
  | .ctrl => 0
  | .status => e.status.bits.setWidth 32
  | .fault => e.fault.bits.setWidth 32
  | .npix => e.npix
  | .ilen => 0
  | .olen => natReg e.olen
  | .cursor => natReg e.i
  | .finfo => natReg e.finfo

/-- A read of DEC's bank (R35): OLEN shows the bytes consumed, CURSOR the pixels produced. -/
def DecUnit.readReg (d : DecUnit) : Reg → Word
  | .ctrl => 0
  | .status => d.status.bits.setWidth 32
  | .fault => d.fault.bits.setWidth 32
  | .npix => d.npix
  | .ilen => d.ilen
  | .olen => natReg d.ip
  | .cursor => natReg d.op
  | .finfo => natReg d.finfo

/-- A register read by unit and register. -/
def State.readReg (s : State) (u : UnitName) (r : Reg) : Word :=
  match u with
  | .enc => s.enc.readReg r
  | .dec => s.dec.readReg r

/-- What a write to CTRL asks for (R36): RESET (bit 1) wins over START (bit 0); other bits are ignored. -/
inductive Command where
  | reset
  | start
  | nothing
  deriving DecidableEq, Repr

/-- The command in a CTRL value (R36). -/
def ctrlCommand (v : Word) : Command :=
  if v.getLsbD 1 then .reset else if v.getLsbD 0 then .start else .nothing

/-- A command on ENC (R36, R230, R233). -/
def EncUnit.command (e : EncUnit) : Command → EncUnit
  | .reset => e.resetUnit
  | .start => e.start Config.npixMax
  | .nothing => e

/-- A command on DEC. -/
def DecUnit.command (d : DecUnit) : Command → DecUnit
  | .reset => d.resetUnit
  | .start => d.start Config.npixMax
  | .nothing => d

/-- A write to ENC's bank (R35, R36, R37): CTRL commands, NPIX unless BUSY; ILEN ignores writes in this bank, and a write to a read-only
register has no effect (DEDUCED, log entry 8). -/
def EncUnit.writeReg (e : EncUnit) (r : Reg) (v : Word) : EncUnit :=
  match r with
  | .ctrl => e.command (ctrlCommand v)
  | .npix => if e.status = .busy then e else { e with npix := v }
  | .status | .fault | .ilen | .olen | .cursor | .finfo => e

/-- A write to DEC's bank: CTRL commands, NPIX and ILEN unless BUSY. -/
def DecUnit.writeReg (d : DecUnit) (r : Reg) (v : Word) : DecUnit :=
  match r with
  | .ctrl => d.command (ctrlCommand v)
  | .npix => if d.status = .busy then d else { d with npix := v }
  | .ilen => if d.status = .busy then d else { d with ilen := v }
  | .status | .fault | .olen | .cursor | .finfo => d

/-- A register write by unit and register. -/
def State.writeReg (s : State) (u : UnitName) (r : Reg) (v : Word) : State :=
  match u with
  | .enc => { s with enc := s.enc.writeReg r v }
  | .dec => { s with dec := s.dec.writeReg r v }

/-- The host writes a word of ENC's input buffer (R236): refused while ENC is BUSY (R71, U3), a fault beyond the largest index. -/
def hostLoadPix (a : Nat) (w : Word) (s : State) : Answer :=
  if s.enc.status = .busy then .refused .busyBufferWrite
  else if Config.npixMax ≤ a then .fault .noSuchAddress
  else .next { s with enc := { s.enc with pix := Memory.write s.enc.pix a w } }

/-- The host writes a byte of DEC's input buffer (R236). -/
def hostLoadStr (a : Nat) (b : Byte) (s : State) : Answer :=
  if s.dec.status = .busy then .refused .busyBufferWrite
  else if Config.ilenMax ≤ a then .fault .noSuchAddress
  else .next { s with dec := { s.dec with str := Memory.write s.dec.str a b } }

/-- A hardware reset (R230): both units; the buffers are not touched (R231). -/
def State.hardwareReset (s : State) : State := { s with enc := s.enc.resetUnit, dec := s.dec.resetUnit }

/-- `n` bytes of ENC's output from offset `a`. -/
def EncUnit.strBytes (e : EncUnit) : Nat → Nat → List Byte
  | _, 0 => []
  | a, n + 1 => e.strRead a :: e.strBytes (a + 1) n

/-- `n` pixels of DEC's output from index `a`. -/
def DecUnit.pixels (d : DecUnit) : Nat → Nat → List Pixel
  | _, 0 => []
  | a, n + 1 => d.pixRead a :: d.pixels (a + 1) n

/-- ENC's result (R236, R237): STR[0 .. olen-1] in DONE; in any other status the output buffer is unreadable (R211, R231, U5). -/
def EncUnit.result (e : EncUnit) : Option (List Byte) := if e.status = .done then some (e.strBytes 0 e.olen) else none

/-- DEC's result (R236, R237): the pixels of the completed invocation in DONE; else unreadable. -/
def DecUnit.result (d : DecUnit) : Option (List Pixel) := if d.status = .done then some (d.pixels 0 d.op) else none

end Sys2Proof.Machine
end

