-- ==== Sys2Proof/Machine/Turns.lean ====
section
/-! DEFINITION. One turn of one agent (00_scope.md R16): a step of ENC, a step of DEC, a host action, a hardware reset; and whose turn it
is (log entry 1). -/

namespace Sys2Proof.Machine

/-- A turn of ENC: its step when BUSY (R141); otherwise no step is enabled and nothing happens (R32, R221). -/
def encTurn (s : State) : Answer :=
  if s.enc.status = .busy then .next { s with enc := s.enc.step } else .next s

/-- A turn of DEC (R171): when BUSY, the chunk at `ip` is executed, or TruncatedStream is raised when there is none (R173). -/
def decTurn (s : State) : Answer :=
  if s.dec.status = .busy then
    match s.dec.fetch with
    | some i => exec i s
    | none => decRaise .truncatedStream s
  else .next s

/-- One turn. -/
def takeTurn (t : Turn) (s : State) : Answer :=
  match t with
  | .encStep => encTurn s
  | .decStep => decTurn s
  | .writeReg u r v => .next (s.writeReg u r v)
  | .loadPix a w => hostLoadPix a w s
  | .loadStr a b => hostLoadStr a b s
  | .hardwareReset => .next s.hardwareReset

/-- Whose turn it is when the agenda is empty (DESIGN CHOICE, log entry 1): DEC while it is BUSY, then ENC, so that a BUSY unit always
gets its next step (R253). With both idle the machine waits (R232): ENC's turn with no step enabled. -/
def defaultTurn (s : State) : Turn := if s.dec.status = .busy then .decStep else .encStep

/-- The machine's move: the first turn of the agenda, or the default turn. -/
def advance (s : State) : Answer :=
  match s.agenda with
  | [] => takeTurn (defaultTurn s) s
  | t :: rest => takeTurn t { s with agenda := rest }

end Sys2Proof.Machine
end

