-- ==== Sys2Proof/Machine/Step.lean ====
section
/-! DEFINITION. The step of the machine, and the placing of one instruction where DEC fetches next. -/

namespace Sys2Proof.Machine

/-- One step: one turn of one agent. -/
def step (s : State) : Host.Outcome State Fault Refusal := advance s

/-- `s` with the instruction whose bits are `w` stored at DEC's `ip`, and all that it takes for the very next step to run it (log entry
11): DEC BUSY, ILEN and NPIX large enough for the chunk's bytes and for the longest run, and DEC's turn next. -/
def State.withFetchWord (s : State) (nbits w : Nat) : State :=
  { s with
    dec :=
      { s.dec with
        str := Memory.writeList s.dec.str s.dec.ip (tableBytes nbits w)
        ilen := BitVec.ofNat 32 (max s.dec.ilen.toNat (s.dec.ip + 5))
        npix := BitVec.ofNat 32 (max s.dec.npix.toNat (s.dec.op + Config.runMax))
        status := .busy }
    agenda := .decStep :: s.agenda }

end Sys2Proof.Machine
end

