-- ==== Sys2Proof/Machine/Frame.lean ====
section
/-! DEFINITION. Whole invocations, and the wrapper FRAME outside the core (00_scope.md R5; 41_framing.md): header codec, end marker, file
encode and decode, which run the machine's own units. -/

namespace Sys2Proof.Machine

/-! Whole invocations. -/

/-- At most `n` steps of the machine, fewer where it stops. -/
def runSteps : Nat → State → State
  | 0, s => s
  | n + 1, s =>
    match step s with
    | .next t => runSteps n t
    | .fault _ => s
    | .refused _ => s

/-- The machine as the host leaves it after the duties of R235 for ENC and START: NPIX written, the pixels in PIX from index 0. -/
def encLaunch (ps : List Pixel) : State :=
  { State.reset with
    enc :=
      EncUnit.start Config.npixMax
        { EncUnit.reset with
          npix := BitVec.ofNat 32 ps.length
          pix := Memory.writeList [] 0 (ps.map wordOfPixel) } }

/-- The same for DEC: NPIX and ILEN written, the chunk stream in STR from offset 0 (R235). -/
def decLaunch (n : Nat) (bytes : List Byte) : State :=
  { State.reset with
    dec :=
      DecUnit.start Config.npixMax
        { DecUnit.reset with
          npix := BitVec.ofNat 32 n
          ilen := BitVec.ofNat 32 bytes.length
          str := Memory.writeList [] 0 bytes } }

/-- What the host does from reset to encode `ps` (R235): the pixels into PIX one by one, NPIX, START. -/
def encHostTurns (ps : List Pixel) : List Turn :=
  (ps.zipIdx.map fun x => Turn.loadPix x.2 (wordOfPixel x.1))
    ++ [.writeReg .enc .npix (BitVec.ofNat 32 ps.length), .writeReg .enc .ctrl 1]

/-- What the host does from reset to decode `n` pixels out of `bytes` (R235): the bytes into STR one by one, NPIX, ILEN, START. -/
def decHostTurns (n : Nat) (bytes : List Byte) : List Turn :=
  (bytes.zipIdx.map fun x => Turn.loadStr x.2 x.1)
    ++ [.writeReg .dec .npix (BitVec.ofNat 32 n), .writeReg .dec .ilen (BitVec.ofNat 32 bytes.length), .writeReg .dec .ctrl 1]

/-- ENC at the end of its invocation on `ps`: exactly NPIX steps (R253). -/
def encInvocation (ps : List Pixel) : EncUnit := (runSteps ps.length (encLaunch ps)).enc

/-- DEC at the end of its invocation: at most NPIX steps (R253). -/
def decInvocation (n : Nat) (bytes : List Byte) : DecUnit := (runSteps n (decLaunch n bytes)).dec

/-! The header. -/

/-- The fields of a header (R126). Width and height are read as signed 32-bit numbers (R129). -/
structure Header where
  width : Word
  height : Word
  channels : Nat
  colorSpace : Nat
  deriving DecidableEq, Repr

/-- How a FRAME operation ends without a result. -/
inductive FrameStop where
  /-- A named failure with its information (R201, R208). -/
  | raised (code : FaultCode) (info : Nat)
  /-- A stream longer than ILEN_MAX cannot be given to DEC; the spec names no failure (U8). Refused: log entry 12. -/
  | streamTooLong
  deriving DecidableEq, Repr

/-- A 32-bit number as four bytes, most significant first (R56). -/
def bigEndian (w : Word) : List Byte := [w.extractLsb' 24 8, w.extractLsb' 16 8, w.extractLsb' 8 8, w.extractLsb' 0 8]

/-- Both dimensions positive as signed 32-bit numbers (R127, R128, R129). -/
def dimensionsOk (width height : Word) : Bool := decide (0 < width.toInt) && decide (0 < height.toInt)

/-- HDR.ENCODE (R127): channels and colour space are checked before the dimensions (R213). -/
def hdrEncode (h : Header) : Except FrameStop (List Byte) :=
  if ¬((h.channels = 3 ∨ h.channels = 4) ∧ (h.colorSpace = 0 ∨ h.colorSpace = 1)) then .error (.raised .invalidHeader 0)
  else if dimensionsOk h.width h.height = false then .error (.raised .invalidDimensions 0)
  else
    .ok (Config.magic ++ bigEndian h.width ++ bigEndian h.height
      ++ [BitVec.ofNat 8 h.channels, BitVec.ofNat 8 h.colorSpace])

/-- HDR.DECODE (R128): length, magic, channels byte, colour-space byte, then dimensions (R213). -/
def hdrDecode : List Byte → Except FrameStop Header
  | [m0, m1, m2, m3, w3, w2, w1, w0, h3, h2, h1, h0, ch, cs] =>
    if [m0, m1, m2, m3] ≠ Config.magic then .error (.raised .invalidHeader 0)
    else if ¬(ch = 3 ∨ ch = 4) then .error (.raised .invalidHeader 0)
    else if ¬(cs = 0 ∨ cs = 1) then .error (.raised .invalidHeader 0)
    else if dimensionsOk (w3 ++ w2 ++ w1 ++ w0) (h3 ++ h2 ++ h1 ++ h0) = false then .error (.raised .invalidDimensions 0)
    else .ok ⟨w3 ++ w2 ++ w1 ++ w0, h3 ++ h2 ++ h1 ++ h0, ch.toNat, cs.toNat⟩
  | _ => .error (.raised .invalidHeader 0)

/-! Whole files. -/

/-- `NPIX = width x height` (R131, R132). -/
def Header.pixels (h : Header) : Nat := h.width.toNat * h.height.toNat

/-- FILE.ENCODE (R131, R213): the header checks, then ShapeMismatch, then ENC, whose START refuses more than NPIX_MAX pixels (R203). -/
def fileEncode (h : Header) (ps : List Pixel) : Except FrameStop (List Byte) :=
  match hdrEncode h with
  | .error stop => .error stop
  | .ok hdr =>
    if ps.length ≠ h.pixels then .error (.raised .shapeMismatch 0)
    else if Config.npixMax < ps.length then .error (.raised .invalidDimensions 0)
    else
      let e := encInvocation ps
      match e.result with
      | some bytes => .ok (hdr ++ bytes ++ Config.endMarker)
      | none => .error (.raised e.fault e.finfo)

/-- FILE.DECODE (R132, R213): the header is checked before any chunk is read; the end marker is cut off and not compared. -/
def fileDecode (f : List Byte) : Except FrameStop (Header × List Pixel) :=
  if f.length < Config.headerLen then .error (.raised .invalidHeader 0)
  else
    match hdrDecode (f.take Config.headerLen) with
    | .error stop => .error stop
    | .ok h =>
      if f.length < Config.headerLen + Config.endLen then .error (.raised .truncatedStream 0)
      else if Config.npixMax < h.pixels then .error (.raised .invalidDimensions 0)
      else
        let bytes := (f.drop Config.headerLen).take (f.length - (Config.headerLen + Config.endLen))
        if Config.ilenMax < bytes.length then .error .streamTooLong
        else
          let d := decInvocation h.pixels bytes
          match d.result with
          | some ps => .ok (h, ps)
          | none => .error (.raised d.fault d.finfo)

end Sys2Proof.Machine
end

