-- ==== Sys2Proof/Safety.lean ====
section
/-! DEFINITION. What a safe run of QOI-CORE is: the invariants between steps (10_state.md R43, 40_hash_lut.md R115, and the canonical
form of the memories), and the frames the statements are written in: what a completed DEC step and a completed ENC step may change. -/

namespace Sys2Proof.Machine

/-- R115: every slot holds the initial pixel or a pixel that hashes to the slot. -/
def Lut.Inv (lut : Lut) : Prop := ∀ k : BitVec 6, Lut.read lut k = Config.zeroPixel ∨ hash (Lut.read lut k) = k

/-- What holds of ENC between the steps of an invocation (R43). -/
structure EncUnit.BusyInv (e : EncUnit) : Prop where
  /-- BUSY implies `enc.i < N` (R141). -/
  i_lt : e.i < e.npix.toNat
  /-- R22, C4. -/
  run_le : e.run.toNat ≤ 61
  run_le_i : e.run.toNat ≤ e.i
  /-- The bytes so far cover the pixels that are not in the pending run (R40), at most five each (R159). -/
  olen_le : e.olen ≤ 5 * (e.i - e.run.toNat)
  prev_eq : e.prev = if e.i = 0 then Config.startPixel else e.pixRead (e.i - 1)
  run_eq : ∀ j, j < e.i → e.i ≤ j + e.run.toNat → e.pixRead j = e.prev

/-- The invariant of ENC. -/
structure EncUnit.Inv (e : EncUnit) : Prop where
  pix_wf : Memory.wf e.pix
  str_wf : Memory.wf e.str
  lut : Lut.Inv e.lut
  /-- Every byte of the output so far has been written: the result rests on no free value. -/
  str_written : ∀ j, j < e.olen → (Memory.read? e.str j).isSome
  busy : e.status = .busy → e.BusyInv
  done : e.status = .done → e.run = 0
  /-- ENC's only fault is InvalidDimensions, raised at START (R155, R208). -/
  faulted : e.status = .fault → e.fault = .invalidDimensions
  noFault : e.status ≠ .fault → e.fault = .noFault
  finfo : e.finfo = 0

/-- What holds of DEC between the steps of an invocation (R43). -/
structure DecUnit.BusyInv (d : DecUnit) : Prop where
  op_lt : d.op < d.npix.toNat
  ip_le : d.ip ≤ d.ilen.toNat
  prev_eq : d.prev = if d.op = 0 then Config.startPixel else d.pixRead (d.op - 1)

/-- The invariant of DEC. -/
structure DecUnit.Inv (d : DecUnit) : Prop where
  pix_wf : Memory.wf d.pix
  str_wf : Memory.wf d.str
  lut : Lut.Inv d.lut
  /-- Every pixel of the output so far has been written. -/
  pix_written : ∀ j, j < d.op → (Memory.read? d.pix j).isSome
  busy : d.status = .busy → d.BusyInv
  /-- What DEC can raise, and the offset it records (R201, R208). -/
  faulted : d.status = .fault →
    d.fault = .invalidDimensions ∧ d.finfo = 0 ∨ (d.fault = .truncatedStream ∨ d.fault = .shapeMismatch) ∧ d.finfo = d.ip
  noFault : d.status ≠ .fault → d.fault = .noFault ∧ d.finfo = 0

/-- The invariant of the machine. -/
structure State.Inv (s : State) : Prop where
  enc : s.enc.Inv
  dec : s.dec.Inv

/-- Everything a completed DEC step that yields `cnt` copies of `px` from a chunk of `len` bytes does (R172, R183, R186, R187), and that
it does nothing else: the frame of the six chunk meanings. -/
structure DecProduces (s t : State) (px : Pixel) (cnt len : Nat) : Prop where
  prev : t.dec.prev = px
  op : t.dec.op = s.dec.op + cnt
  ip : t.dec.ip = s.dec.ip + len
  /-- The bytes stored to: PIX from `op`, `cnt` words, each the pixel in the layout of R53. -/
  pix_written : ∀ j, j < cnt → Memory.read? t.dec.pix (s.dec.op + j) = some (wordOfPixel px)
  pix_frame : ∀ a, a < s.dec.op ∨ s.dec.op + cnt ≤ a → Memory.read? t.dec.pix a = Memory.read? s.dec.pix a
  lut_written : Lut.read t.dec.lut (hash s.dec.prev) = s.dec.prev
  lut_frame : ∀ k, k ≠ hash s.dec.prev → Lut.read t.dec.lut k = Lut.read s.dec.lut k
  done : s.dec.op + cnt = s.dec.npix.toNat → t.dec.status = .done
  status_frame : s.dec.op + cnt ≠ s.dec.npix.toNat → t.dec.status = s.dec.status
  fault_frame : t.dec.fault = s.dec.fault ∧ t.dec.finfo = s.dec.finfo
  config_frame : t.dec.npix = s.dec.npix ∧ t.dec.ilen = s.dec.ilen
  str_frame : t.dec.str = s.dec.str
  enc_frame : t.enc = s.enc
  agenda_frame : t.agenda = s.agenda

/-- A DEC step that raises `code` (R210): `status`, `fault`, `finfo` = `ip`, and nothing else. -/
def State.decFaulted (s : State) (code : FaultCode) : State :=
  { s with dec := { s.dec with status := .fault, fault := code, finfo := s.dec.ip } }

/-- Everything a completed ENC step on the pixel `px` does that appends `bytes` and leaves the run counter at `run` (R141, R156, R157),
without the LUT; and that it does nothing else. -/
structure EncAdvances (s t : State) (px : Pixel) (bytes : List Byte) (run : Nat) : Prop where
  prev : t.enc.prev = px
  i : t.enc.i = s.enc.i + 1
  run : t.enc.run.toNat = run
  olen : t.enc.olen = s.enc.olen + bytes.length
  /-- The bytes stored to: STR from `olen`, the appended bytes in order. -/
  str_written : ∀ j (h : j < bytes.length), Memory.read? t.enc.str (s.enc.olen + j) = some bytes[j]
  str_frame : ∀ a, a < s.enc.olen ∨ s.enc.olen + bytes.length ≤ a → Memory.read? t.enc.str a = Memory.read? s.enc.str a
  done : s.enc.i + 1 = s.enc.npix.toNat → t.enc.status = .done
  status_frame : s.enc.i + 1 ≠ s.enc.npix.toNat → t.enc.status = s.enc.status
  fault_frame : t.enc.fault = s.enc.fault ∧ t.enc.finfo = s.enc.finfo
  npix_frame : t.enc.npix = s.enc.npix
  pix_frame : t.enc.pix = s.enc.pix
  dec_frame : t.dec = s.dec
  agenda_frame : t.agenda = s.agenda

/-- The LUT of ENC after an index miss on `px` (R146): `px` in its slot, every other slot as it was. -/
structure EncLutWritten (s t : State) (px : Pixel) : Prop where
  written : Lut.read t.enc.lut (hash px) = px
  frame : ∀ k, k ≠ hash px → Lut.read t.enc.lut k = Lut.read s.enc.lut k

/-- The byte of the pending run that a step flushes before the pixel's own chunk (R145), none when no run is pending. -/
def EncUnit.pendingRunBytes (e : EncUnit) : List Byte :=
  if e.run.toNat = 0 then [] else [BitVec.ofNat 8 (0xC0 + (e.run.toNat - 1))]

/-- The pixel of ENC's next step, and whether ENC can take it: BUSY, and a run counter as it is between steps (R22, R141). -/
structure State.EncReady (s : State) (px : Pixel) : Prop where
  busy : s.enc.status = .busy
  run_le : s.enc.run.toNat ≤ 61
  px_eq : s.enc.pixRead s.enc.i = px

/-- An index miss with unchanged alpha (R146, R153), with the channel differences of R148. -/
structure State.EncDelta (s : State) (px : Pixel) (dr dg db : Int) : Prop where
  ready : s.EncReady px
  not_run : px ≠ s.enc.prev
  miss : Lut.read s.enc.lut (hash px) ≠ px
  alpha : px.a = s.enc.prev.a
  dr_eq : (dr - (px.r.toNat - s.enc.prev.r.toNat)) % 256 = 0 ∧ -128 ≤ dr ∧ dr ≤ 127
  dg_eq : (dg - (px.g.toNat - s.enc.prev.g.toNat)) % 256 = 0 ∧ -128 ≤ dg ∧ dg ≤ 127
  db_eq : (db - (px.b.toNat - s.enc.prev.b.toNat)) % 256 = 0 ∧ -128 ≤ db ∧ db ≤ 127

end Sys2Proof.Machine
end

