-- ==== Sys2Proof/Certificates/Slice0/Obligations.lean ====
section
/-! DEFINITION. The statements for the provers, family by family. Each docstring names the rule of spec/ it formalises; a statement that
rests on a choice of the model's says so and names the log entry. -/

open Sys2Proof Sys2Proof.Machine

/-! ## Encoding -/

/-- 30_encoding.md sections 3 and 6: decoding an encoded well-formed chunk gives it back and leaves the bytes after it. -/
def Obligations.DecodeOfEncode : Prop :=
  ∀ (i : Instr) (rest : List Byte), i.wellFormed = true → decode (encode i ++ rest) = .ok (i, rest)

/-- 30_encoding.md sections 4 and 5: every decoded chunk is well formed and its encoding is the bytes it was read from; so each byte
string has one meaning. -/
def Obligations.EncodeOfDecode : Prop :=
  ∀ (bs rest : List Byte) (i : Instr), decode bs = .ok (i, rest) → i.wellFormed = true ∧ encode i ++ rest = bs

/-- 30_encoding.md sections 2 and 5 (R87 and R97, which the spec marks as derived): a first byte with the bytes its length asks for is a
chunk, of that length, whatever they are; with fewer bytes nothing is decoded. -/
def Obligations.EveryByteStringDecodes : Prop :=
  ∀ (b0 : Byte) (rest : List Byte),
    (chunkLen b0 ≤ rest.length + 1 →
      ∃ i rest', decode (b0 :: rest) = .ok (i, rest') ∧ i.length = chunkLen b0 ∧ rest'.length + chunkLen b0 = rest.length + 1) ∧
    (rest.length + 1 < chunkLen b0 → ∃ e, decode (b0 :: rest) = .error e)

/-- 30_encoding.md section 7: the first row of the opcode table that matches byte 0 has the length and the mnemonic of the chunk the
decoder reads (R102 first match, R86 priority), and every byte matches some row. That the rows give RGB the byte 0xFE and RGBA 0xFF is the
spec's own decision D8 (R85), PRESUMED in log entry 7. -/
def Obligations.OpcodeTableAgreesWithDecoder : Prop :=
  ∀ b0 : Byte, ∃ row, rowOf b0 = some row ∧ row.length = chunkLen b0 ∧
    ∀ rest i rest', decode (b0 :: rest) = .ok (i, rest') → i.mnemonic = row.mnemonic

/-- 30_encoding.md sections 2 and 3: words written out bit by bit from R89 to R94: one of each kind, the RUN bounds, and payload bytes
that look like tags. The values TAG_RGB = 0xFE and TAG_RGBA = 0xFF (R85, D8) and the positions of the DIFF fields and of the LUMA nibbles
(D9) are PRESUMED in log entry 7. -/
def Obligations.WrittenOutWordsDecode : Prop :=
  decodeTableWord 8 0b00110101 = some (.index 53) ∧
  decodeTableWord 8 0b01110110 = some (.diff 1 (-1) 0) ∧
  decodeTableWord 16 0b0101011010100010 = some (.luma 2 (-3) (-2)) ∧
  decodeTableWord 8 0b11000000 = some (.run 1) ∧
  decodeTableWord 8 0b11111101 = some (.run 62) ∧
  decodeTableWord 32 0b11001000100101100110010011111110 = some (.rgb 100 150 200) ∧
  decodeTableWord 40 0b1111111011001000100101100110010011111111 = some (.rgba 100 150 200 254)

/-! ## Pixels, the hash and the LUT -/

/-- R53: the pixel word layout, and `pixel` the inverse of `word`. The layout is the spec's own decision D3. -/
def Obligations.PixelWordLayout : Prop :=
  ∀ (p : Pixel) (w : Word),
    (wordOfPixel p).toNat = p.r.toNat * 2 ^ 24 + p.g.toNat * 2 ^ 16 + p.b.toNat * 2 ^ 8 + p.a.toNat ∧
    pixelOfWord (wordOfPixel p) = p ∧ wordOfPixel (pixelOfWord w) = w

/-- 40_hash_lut.md section 1 (R111, which the spec marks as derived): the hash depends only on the low 6 bits of each channel, and reading
the channels as signed gives the same slot. -/
def Obligations.HashNeedsOnlySixBits : Prop :=
  (∀ p q : Pixel, p.r.toNat % 64 = q.r.toNat % 64 → p.g.toNat % 64 = q.g.toNat % 64 → p.b.toNat % 64 = q.b.toNat % 64 →
    p.a.toNat % 64 = q.a.toNat % 64 → hash p = hash q) ∧
  ∀ p : Pixel, ((hash p).toNat : Int) = (3 * p.r.toInt + 5 * p.g.toInt + 7 * p.b.toInt + 11 * p.a.toInt) % 64

/-- 40_hash_lut.md sections 1 and 3 (R110, R114): LUT.WRITE puts the pixel in the slot `(3R + 5G + 7B + 11A) mod 64` and leaves every
other slot; the last writer wins. -/
def Obligations.LutWriteStoresAtHash : Prop :=
  ∀ (lut : Lut) (p : Pixel) (k : BitVec 6),
    Lut.read (Lut.write lut p) k =
      if k.toNat = (p.r.toNat * 3 + p.g.toNat * 5 + p.b.toNat * 7 + p.a.toNat * 11) % 64 then p else Lut.read lut k

/-- 40_hash_lut.md section 5 (R117's corner case): in a cleared LUT exactly the zero pixel is a hit, and after LUT.WRITE of a pixel that
pixel is one. -/
def Obligations.FreshLutHitsOnlyZeroPixel : Prop :=
  (∀ p : Pixel, Lut.hit Lut.clear p = true ↔ p = ⟨0, 0, 0, 0⟩) ∧
  ∀ (lut : Lut) (p : Pixel), Lut.hit (Lut.write lut p) p = true

/-! ## The chunks that DEC executes -/

/-- 43_decoder.md section 2 (R175, whose alpha clause the spec marks as derived): RGB yields its three bytes with the alpha of `prev`,
selected by TAG_RGB, four bytes, TruncatedStream when fewer remain. -/
def Obligations.RgbChunk : Prop :=
  (∀ (r g b : Byte) (s : State), ∃ t, exec (.rgb r g b) s = .next t ∧ DecProduces s t ⟨r, g, b, s.dec.prev.a⟩ 1 4) ∧
  (∀ s : State, s.dec.status = .busy → s.dec.strRead s.dec.ip = Config.tagRgb → s.dec.ip + 4 ≤ s.dec.ilen.toNat →
    decTurn s =
      exec (.rgb (s.dec.strRead (s.dec.ip + 1)) (s.dec.strRead (s.dec.ip + 2)) (s.dec.strRead (s.dec.ip + 3))) s) ∧
  ∀ s : State, s.dec.status = .busy → s.dec.strRead s.dec.ip = Config.tagRgb → s.dec.ilen.toNat < s.dec.ip + 4 →
    decTurn s = .next (s.decFaulted .truncatedStream)

/-- R176: RGBA yields its four bytes, selected by TAG_RGBA, five bytes, TruncatedStream when fewer remain. -/
def Obligations.RgbaChunk : Prop :=
  (∀ (r g b a : Byte) (s : State), ∃ t, exec (.rgba r g b a) s = .next t ∧ DecProduces s t ⟨r, g, b, a⟩ 1 5) ∧
  (∀ s : State, s.dec.status = .busy → s.dec.strRead s.dec.ip = Config.tagRgba → s.dec.ip + 5 ≤ s.dec.ilen.toNat →
    decTurn s =
      exec (.rgba (s.dec.strRead (s.dec.ip + 1)) (s.dec.strRead (s.dec.ip + 2)) (s.dec.strRead (s.dec.ip + 3))
        (s.dec.strRead (s.dec.ip + 4))) s) ∧
  ∀ s : State, s.dec.status = .busy → s.dec.strRead s.dec.ip = Config.tagRgba → s.dec.ilen.toNat < s.dec.ip + 5 →
    decTurn s = .next (s.decFaulted .truncatedStream)

/-- R177: INDEX yields the slot's pixel as it stands after this step's pre-write, so slot `hash(prev)` yields `prev`; selected by tag
`00`, one byte, no fault beyond the fetch check. -/
def Obligations.IndexChunk : Prop :=
  (∀ (k : BitVec 6) (s : State), ∃ t, exec (.index k) s = .next t ∧
    DecProduces s t (if k = hash s.dec.prev then s.dec.prev else Lut.read s.dec.lut k) 1 1) ∧
  ∀ s : State, s.dec.status = .busy → s.dec.ip < s.dec.ilen.toNat → (s.dec.strRead s.dec.ip).toNat < 64 →
    decTurn s = exec (.index (BitVec.ofNat 6 (s.dec.strRead s.dec.ip).toNat)) s

/-- R178: RUN n yields n copies of `prev`, which stays as it is; the first byte is 0xC0 to 0xFD and n is 1 to 62; ShapeMismatch when the
run does not fit. -/
def Obligations.RunChunk : Prop :=
  (∀ (n : Nat) (s : State), s.dec.op + n ≤ s.dec.npix.toNat →
    ∃ t, exec (.run n) s = .next t ∧ DecProduces s t s.dec.prev n 1) ∧
  (∀ (n : Nat) (s : State), s.dec.npix.toNat < s.dec.op + n → exec (.run n) s = .next (s.decFaulted .shapeMismatch)) ∧
  ∀ s : State, s.dec.status = .busy → s.dec.ip < s.dec.ilen.toNat → 0xC0 ≤ (s.dec.strRead s.dec.ip).toNat →
    s.dec.strRead s.dec.ip ≠ Config.tagRgb → s.dec.strRead s.dec.ip ≠ Config.tagRgba →
    decTurn s = exec (.run ((s.dec.strRead s.dec.ip).toNat - 0xBF)) s ∧
      1 ≤ (s.dec.strRead s.dec.ip).toNat - 0xBF ∧ (s.dec.strRead s.dec.ip).toNat - 0xBF ≤ 62

/-- R179: a RUN that would carry the output past the image raises ShapeMismatch with `finfo = dec.ip` and writes none of its pixels; no
other chunk overruns from a state with a pixel still to produce. The choice of the fault is the spec's own decision D11. -/
def Obligations.RunOverrunRaisesShapeMismatch : Prop :=
  (∀ (n : Nat) (s : State), s.dec.npix.toNat < s.dec.op + n → exec (.run n) s = .next (s.decFaulted .shapeMismatch)) ∧
  ∀ (i : Instr) (s t : State), (∀ n, i ≠ .run n) → s.dec.op < s.dec.npix.toNat → exec i s = .next t →
    t.dec.op ≤ s.dec.npix.toNat ∧ t.dec.fault = s.dec.fault

/-- 43_decoder.md section 6 (R180, whose clause on the addition and the alpha the spec marks as derived): DIFF adds its deltas to the
channels of `prev` modulo 256 and keeps its alpha; tag `01`, fields 5:4, 3:2, 1:0 each less 2. That the addition wraps is the spec's own
decision D7, the field positions D9, both PRESUMED in log entry 7. -/
def Obligations.DiffChunk : Prop :=
  (∀ (dr dg db : Int) (s : State), ∃ t px, exec (.diff dr dg db) s = .next t ∧ DecProduces s t px 1 1 ∧
    (px.r.toNat : Int) = (s.dec.prev.r.toNat + dr) % 256 ∧ (px.g.toNat : Int) = (s.dec.prev.g.toNat + dg) % 256 ∧
    (px.b.toNat : Int) = (s.dec.prev.b.toNat + db) % 256 ∧ px.a = s.dec.prev.a) ∧
  ∀ (s : State) (b0 : Nat), s.dec.status = .busy → s.dec.ip < s.dec.ilen.toNat → (s.dec.strRead s.dec.ip).toNat = b0 →
    0x40 ≤ b0 → b0 < 0x80 →
    decTurn s = exec (.diff ((b0 / 16 % 4 : Nat) - 2) ((b0 / 4 % 4 : Nat) - 2) ((b0 % 4 : Nat) - 2)) s

/-- 43_decoder.md section 7 (R181, whose clause on the addition and the alpha the spec marks as derived): LUMA rebuilds `dr = dg + drg`,
`db = dg + dbg` and adds the three deltas modulo 256, keeping the alpha; tag `10`, `dg` in bits 5:0 less 32, byte 1 two nibbles less 8,
any byte 1; TruncatedStream when only one byte remains. That the addition wraps is the spec's own decision D7, the order of the nibbles of
byte 1 D9, both PRESUMED in log entry 7. -/
def Obligations.LumaChunk : Prop :=
  (∀ (dg drg dbg : Int) (s : State), ∃ t px, exec (.luma dg drg dbg) s = .next t ∧ DecProduces s t px 1 2 ∧
    (px.r.toNat : Int) = (s.dec.prev.r.toNat + (dg + drg)) % 256 ∧ (px.g.toNat : Int) = (s.dec.prev.g.toNat + dg) % 256 ∧
    (px.b.toNat : Int) = (s.dec.prev.b.toNat + (dg + dbg)) % 256 ∧ px.a = s.dec.prev.a) ∧
  (∀ (s : State) (b0 b1 : Nat), s.dec.status = .busy → s.dec.ip + 2 ≤ s.dec.ilen.toNat → (s.dec.strRead s.dec.ip).toNat = b0 →
    (s.dec.strRead (s.dec.ip + 1)).toNat = b1 → 0x80 ≤ b0 → b0 < 0xC0 →
    decTurn s = exec (.luma ((b0 % 64 : Nat) - 32) ((b1 / 16 : Nat) - 8) ((b1 % 16 : Nat) - 8)) s) ∧
  ∀ (s : State) (b0 : Nat), s.dec.status = .busy → (s.dec.strRead s.dec.ip).toNat = b0 → 0x80 ≤ b0 → b0 < 0xC0 →
    s.dec.ilen.toNat < s.dec.ip + 2 → decTurn s = .next (s.decFaulted .truncatedStream)

/-! ## The DEC step -/

/-- 43_decoder.md section 1, 00_scope.md section 6 (R16): a step of the machine is the turn at the head of the agenda, made on the state
with that turn taken off: ENC's turn, DEC's turn, a register write, a host load, a hardware reset. With an empty agenda it is DEC's turn
while DEC is BUSY, else ENC's. And a step runs the decoded instruction: when DEC has the turn and is BUSY and the bytes at `ip`, all below
ILEN, decode to `i`, the step is `exec i`. The agenda and the default turn are the model's own choice (log entry 1). -/
def Obligations.StepRunsDecodedChunk : Prop :=
  (∀ (s : State) (rest : List Turn),
    (s.agenda = .encStep :: rest → step s = encTurn { s with agenda := rest }) ∧
    (s.agenda = .decStep :: rest → step s = decTurn { s with agenda := rest }) ∧
    (∀ u r v, s.agenda = .writeReg u r v :: rest → step s = .next ({ s with agenda := rest }.writeReg u r v)) ∧
    (∀ a w, s.agenda = .loadPix a w :: rest → step s = hostLoadPix a w { s with agenda := rest }) ∧
    (∀ a b, s.agenda = .loadStr a b :: rest → step s = hostLoadStr a b { s with agenda := rest }) ∧
    (s.agenda = .hardwareReset :: rest → step s = .next { s with agenda := rest }.hardwareReset) ∧
    (s.agenda = [] → s.dec.status = .busy → step s = decTurn s) ∧
    (s.agenda = [] → s.dec.status ≠ .busy → step s = encTurn s)) ∧
  ∀ (s : State) (i : Instr) (rest : List Turn), s.dec.status = .busy →
    s.dec.ip + chunkLen (s.dec.strRead s.dec.ip) ≤ s.dec.ilen.toNat →
    decode (s.dec.strBytes s.dec.ip (chunkLen (s.dec.strRead s.dec.ip))) = .ok (i, []) →
    (s.agenda = .decStep :: rest → step s = exec i { s with agenda := rest }) ∧ (s.agenda = [] → step s = exec i s)

/-- R173: with no byte left, or a chunk that reaches past ILEN, a BUSY DEC raises TruncatedStream with `finfo = dec.ip`; otherwise the
bytes of the chunk decode to a well-formed chunk of that length and DEC executes it. The first case is the spec's decision D12. -/
def Obligations.TruncationCheck : Prop :=
  ∀ s : State, s.dec.status = .busy →
    (s.dec.ilen.toNat ≤ s.dec.ip ∨ s.dec.ilen.toNat < s.dec.ip + chunkLen (s.dec.strRead s.dec.ip) →
      decTurn s = .next (s.decFaulted .truncatedStream)) ∧
    (s.dec.ip < s.dec.ilen.toNat → s.dec.ip + chunkLen (s.dec.strRead s.dec.ip) ≤ s.dec.ilen.toNat →
      ∃ i, i.wellFormed = true ∧ i.length = chunkLen (s.dec.strRead s.dec.ip) ∧
        decode (s.dec.strBytes s.dec.ip (chunkLen (s.dec.strRead s.dec.ip))) = .ok (i, []) ∧ decTurn s = exec i s)

/-- 60_exceptions.md section 3 (R210) and R208's DEC row: a DEC turn that ends in FAULT changed nothing but `status`, `fault` and `finfo`,
the pre-write included; the fault is TruncatedStream or ShapeMismatch and `finfo` is the offset of the chunk. -/
def Obligations.FaultEntryDiscardsTheStep : Prop :=
  ∀ s t : State, s.dec.status = .busy → decTurn s = .next t → t.dec.status = .fault →
    t = s.decFaulted .truncatedStream ∨ t = s.decFaulted .shapeMismatch

/-- 43_decoder.md section 8 (R184, R185, which the spec marks as derived): a DEC turn depends on no input byte but those of its chunk
below ILEN; any other bytes, the trailing ones among them (R188), can be changed without effect. -/
def Obligations.DecReadsOnlyItsChunk : Prop :=
  ∀ (s : State) (str' : Mem Byte),
    (∀ a, s.dec.ip ≤ a → a < s.dec.ip + chunkLen (s.dec.strRead s.dec.ip) → a < s.dec.ilen.toNat →
      Memory.read? str' a = Memory.read? s.dec.str a) →
    ∃ t, decTurn s = .next t ∧
      decTurn { s with dec := { s.dec with str := str' } } = .next { t with dec := { t.dec with str := str' } }

/-- 10_state.md section 4 (R32): in IDLE, DONE and FAULT no step is enabled; the turn of such a unit changes nothing (log entry 2). -/
def Obligations.NoStepUnlessBusy : Prop :=
  ∀ s : State, (s.dec.status ≠ .busy → decTurn s = .next s) ∧ (s.enc.status ≠ .busy → encTurn s = .next s)

/-! ## The ENC step -/

/-- R143 with R144's byte: a pixel equal to `prev` is counted; at 62, or at the last pixel, the RUN chunk 0xC0 + (run - 1) is appended and
the counter cleared; otherwise no byte. The LUT is not touched. -/
def Obligations.EncRunBranch : Prop :=
  ∀ (s : State) (px : Pixel), s.EncReady px → px = s.enc.prev →
    (s.enc.run.toNat + 1 = 62 ∨ s.enc.i + 1 = s.enc.npix.toNat →
      ∃ t, encTurn s = .next t ∧ EncAdvances s t px [BitVec.ofNat 8 (0xC0 + s.enc.run.toNat)] 0 ∧ t.enc.lut = s.enc.lut) ∧
    (s.enc.run.toNat + 1 ≠ 62 → s.enc.i + 1 ≠ s.enc.npix.toNat →
      ∃ t, encTurn s = .next t ∧ EncAdvances s t px [] (s.enc.run.toNat + 1) ∧ t.enc.lut = s.enc.lut)

/-- R147 with R145 and the hit half of R146: a pixel found in its slot is emitted as INDEX, after the pending run if there is one, and the
LUT is not written. -/
def Obligations.EncIndexBranch : Prop :=
  ∀ (s : State) (px : Pixel), s.EncReady px → px ≠ s.enc.prev → Lut.read s.enc.lut (hash px) = px →
    ∃ t, encTurn s = .next t ∧
      EncAdvances s t px (s.enc.pendingRunBytes ++ [BitVec.ofNat 8 (hash px).toNat]) 0 ∧ t.enc.lut = s.enc.lut

/-- 42_encoder.md section 5 (R149 with R145, R146, R148): index miss, alpha unchanged, the three differences in -2..1: one DIFF byte, and
the LUT is written. That differences wrap is the spec's own decision D7, the field positions D9, both PRESUMED in log entry 7. -/
def Obligations.EncDiffBranch : Prop :=
  ∀ (s : State) (px : Pixel) (dr dg db : Int), s.EncDelta px dr dg db →
    -2 ≤ dr ∧ dr ≤ 1 → -2 ≤ dg ∧ dg ≤ 1 → -2 ≤ db ∧ db ≤ 1 →
    ∃ t, encTurn s = .next t ∧
      EncAdvances s t px (s.enc.pendingRunBytes ++ [BitVec.ofInt 8 (0x40 + (dr + 2) * 16 + (dg + 2) * 4 + (db + 2))]) 0 ∧
      EncLutWritten s t px

/-- 42_encoder.md section 6 (R150 with R145, R146, R148): not a DIFF, dg in -32..31, dr - dg and db - dg in -8..7: two LUMA bytes, and the
LUT is written. That differences wrap is the spec's own decision D7, the order of the nibbles of byte 1 D9, both PRESUMED in log entry 7.
-/
def Obligations.EncLumaBranch : Prop :=
  ∀ (s : State) (px : Pixel) (dr dg db : Int), s.EncDelta px dr dg db →
    ¬((-2 ≤ dr ∧ dr ≤ 1) ∧ (-2 ≤ dg ∧ dg ≤ 1) ∧ (-2 ≤ db ∧ db ≤ 1)) →
    -32 ≤ dg ∧ dg ≤ 31 → -8 ≤ dr - dg ∧ dr - dg ≤ 7 → -8 ≤ db - dg ∧ db - dg ≤ 7 →
    ∃ t, encTurn s = .next t ∧
      EncAdvances s t px
        (s.enc.pendingRunBytes ++ [BitVec.ofInt 8 (0x80 + (dg + 32)), BitVec.ofInt 8 ((dr - dg + 8) * 16 + (db - dg + 8))]) 0 ∧
      EncLutWritten s t px

/-- 42_encoder.md section 7 (R151 with R145, R146, R148): index miss, alpha unchanged, neither DIFF nor LUMA: TAG_RGB and the three
channels, and the LUT is written. Which pixels fall through to RGB rests on the wrap of differences (R148), the spec's own decision D7,
PRESUMED in log entry 7. -/
def Obligations.EncRgbBranch : Prop :=
  ∀ (s : State) (px : Pixel) (dr dg db : Int), s.EncDelta px dr dg db →
    ¬((-2 ≤ dr ∧ dr ≤ 1) ∧ (-2 ≤ dg ∧ dg ≤ 1) ∧ (-2 ≤ db ∧ db ≤ 1)) →
    ¬((-32 ≤ dg ∧ dg ≤ 31) ∧ (-8 ≤ dr - dg ∧ dr - dg ≤ 7) ∧ (-8 ≤ db - dg ∧ db - dg ≤ 7)) →
    ∃ t, encTurn s = .next t ∧
      EncAdvances s t px (s.enc.pendingRunBytes ++ [Config.tagRgb, px.r, px.g, px.b]) 0 ∧ EncLutWritten s t px

/-- R152 with R145, R146: index miss and alpha changed: TAG_RGBA and the four channels, whatever the colour differences, and the LUT is
written. -/
def Obligations.EncRgbaBranch : Prop :=
  ∀ (s : State) (px : Pixel), s.EncReady px → px ≠ s.enc.prev → Lut.read s.enc.lut (hash px) ≠ px → px.a ≠ s.enc.prev.a →
    ∃ t, encTurn s = .next t ∧
      EncAdvances s t px (s.enc.pendingRunBytes ++ [Config.tagRgba, px.r, px.g, px.b, px.a]) 0 ∧ EncLutWritten s t px

/-- 42_encoder.md section 9 (R154, which the spec marks as derived): the selection never hands a packer an operand outside its range. -/
def Obligations.SelectionStaysInRange : Prop :=
  ∀ (prev px : Pixel) (lut : Lut) (i : Instr), (select prev lut px).chunk? px = some i → i.wellFormed = true ∧ pack i = some (encode i)

/-- 42_encoder.md section 9 (R155, derived): in a state ENC can be in between steps, a turn of a BUSY ENC raises nothing; InvalidDelta is
unreachable (R206). -/
def Obligations.EncStepNeverFaults : Prop :=
  ∀ s : State, s.enc.status = .busy → s.enc.BusyInv →
    ∃ t, encTurn s = .next t ∧ (t.enc.status = .busy ∨ t.enc.status = .done) ∧ t.enc.fault = s.enc.fault ∧ t.enc.finfo = s.enc.finfo

/-- 20_memory.md section 4 (R60, derived): an ENC turn reads one pixel, the one at `enc.i`; the rest of PIX can be changed without effect.
-/
def Obligations.EncReadsOnlyItsPixel : Prop :=
  ∀ (s : State) (pix' : Mem Word), Memory.read? pix' s.enc.i = Memory.read? s.enc.pix s.enc.i →
    ∃ t, encTurn s = .next t ∧
      encTurn { s with enc := { s.enc with pix := pix' } } = .next { t with enc := { t.enc with pix := pix' } }

/-! ## Commands, registers, the host -/

/-- R233: a CTRL write of START with RESET clear is START; and START of either unit, for every NPIX_MAX, is ignored while BUSY; NPIX = 0
or above NPIX_MAX ends in FAULT with InvalidDimensions and nothing else changed but `finfo` cleared; otherwise the initial working state,
no fault, BUSY, and NPIX, ILEN and the buffers unchanged. -/
def Obligations.StartCommand : Prop :=
  (∀ (s : State) (v : Word), v.getLsbD 1 = false → v.getLsbD 0 = true →
    s.writeReg .enc .ctrl v = { s with enc := s.enc.start Config.npixMax } ∧
    s.writeReg .dec .ctrl v = { s with dec := s.dec.start Config.npixMax }) ∧
  (∀ (m : Nat) (e : EncUnit),
    (e.status = .busy → e.start m = e) ∧
    (e.status ≠ .busy → e.npix.toNat = 0 ∨ m < e.npix.toNat →
      e.start m = { e with status := .fault, fault := .invalidDimensions, finfo := 0 }) ∧
    (e.status ≠ .busy → 0 < e.npix.toNat → e.npix.toNat ≤ m →
      (e.start m).prev = ⟨0, 0, 0, 255⟩ ∧ (∀ k, Lut.read (e.start m).lut k = ⟨0, 0, 0, 0⟩) ∧
      (e.start m).run = 0 ∧ (e.start m).i = 0 ∧ (e.start m).olen = 0 ∧ (e.start m).status = .busy ∧
      (e.start m).fault = .noFault ∧ (e.start m).finfo = 0 ∧ (e.start m).npix = e.npix ∧
      (e.start m).pix = e.pix ∧ (e.start m).str = e.str)) ∧
  ∀ (m : Nat) (d : DecUnit),
    (d.status = .busy → d.start m = d) ∧
    (d.status ≠ .busy → d.npix.toNat = 0 ∨ m < d.npix.toNat →
      d.start m = { d with status := .fault, fault := .invalidDimensions, finfo := 0 }) ∧
    (d.status ≠ .busy → 0 < d.npix.toNat → d.npix.toNat ≤ m →
      (d.start m).prev = ⟨0, 0, 0, 255⟩ ∧ (∀ k, Lut.read (d.start m).lut k = ⟨0, 0, 0, 0⟩) ∧
      (d.start m).ip = 0 ∧ (d.start m).op = 0 ∧ (d.start m).status = .busy ∧
      (d.start m).fault = .noFault ∧ (d.start m).finfo = 0 ∧ (d.start m).npix = d.npix ∧ (d.start m).ilen = d.ilen ∧
      (d.start m).str = d.str ∧ (d.start m).pix = d.pix)

/-- R230 (and that the buffers are left, R231): a hardware reset puts both units, and a write of 1 to CTRL bit 1 the unit whose bank was
written, into the reset state, whatever the unit was doing; the buffers are not touched, nor the other unit. The values other than `prev`,
`lut`, `run` and the cursors are the spec's decision D19. -/
def Obligations.ResetCommand : Prop :=
  ∀ (s : State) (v : Word), v.getLsbD 1 = true →
    (s.writeReg .enc .ctrl v).dec = s.dec ∧ (s.writeReg .dec .ctrl v).enc = s.enc ∧
    s.hardwareReset.enc = (s.writeReg .enc .ctrl v).enc ∧ s.hardwareReset.dec = (s.writeReg .dec .ctrl v).dec ∧
    (∀ k, Lut.read s.hardwareReset.enc.lut k = ⟨0, 0, 0, 0⟩ ∧ Lut.read s.hardwareReset.dec.lut k = ⟨0, 0, 0, 0⟩) ∧
    s.hardwareReset.enc =
      { prev := ⟨0, 0, 0, 255⟩, run := 0, lut := s.hardwareReset.enc.lut, i := 0, olen := 0, status := .idle, fault := .noFault,
        finfo := 0, npix := 0, pix := s.enc.pix, str := s.enc.str } ∧
    s.hardwareReset.dec =
      { prev := ⟨0, 0, 0, 255⟩, lut := s.hardwareReset.dec.lut, ip := 0, op := 0, status := .idle, fault := .noFault, finfo := 0,
        npix := 0, ilen := 0, str := s.dec.str, pix := s.dec.pix }

/-- 10_state.md section 8: the machine right after reset is the reset of both units with nothing in their buffers. That nothing is listed
in the buffers and that the agenda is empty are the model's choices (log entries 1 and 3). -/
def Obligations.ResetState : Prop :=
  ∀ s : State, s.enc.pix = [] → s.enc.str = [] → s.dec.str = [] → s.dec.pix = [] → s.agenda = [] → s.hardwareReset = State.reset

/-- R36: a write to CTRL resets the unit when bit 1 is set, starts it when only bit 0 is and the unit is not BUSY, and does nothing when
neither is; other bits are ignored, and nothing but RESET stops a BUSY unit. -/
def Obligations.CtrlWrite : Prop :=
  ∀ (s : State) (v : Word),
    (v.getLsbD 1 = true →
      s.writeReg .enc .ctrl v = { s with enc := s.enc.resetUnit } ∧ s.writeReg .dec .ctrl v = { s with dec := s.dec.resetUnit }) ∧
    (v.getLsbD 1 = false → v.getLsbD 0 = true →
      s.writeReg .enc .ctrl v = { s with enc := s.enc.start Config.npixMax } ∧
      s.writeReg .dec .ctrl v = { s with dec := s.dec.start Config.npixMax }) ∧
    (v.getLsbD 1 = false → v.getLsbD 0 = false → ∀ u, s.writeReg u .ctrl v = s) ∧
    (v.getLsbD 1 = false → (s.enc.status = .busy → s.writeReg .enc .ctrl v = s) ∧ (s.dec.status = .busy → s.writeReg .dec .ctrl v = s))

/-- 10_state.md section 4 (R36, R37): no register write but RESET changes a BUSY unit, so the NPIX and ILEN an invocation runs under do
not change during it; and no write to one bank changes the other unit. For STATUS, FAULT, OLEN, CURSOR and FINFO, which R36 and R37 do not
speak of, that the write is ignored is DEDUCED in log entry 8. -/
def Obligations.BusyUnitIgnoresWrites : Prop :=
  ∀ (s : State) (r : Reg) (v : Word), (r = .ctrl → v.getLsbD 1 = false) →
    (s.enc.status = .busy → s.writeReg .enc r v = s) ∧ (s.dec.status = .busy → s.writeReg .dec r v = s) ∧
    (s.writeReg .enc r v).dec = s.dec ∧ (s.writeReg .dec r v).enc = s.enc

/-- 10_state.md section 4 (R35, R37): a unit that is not BUSY takes a write of NPIX, and DEC of ILEN, and the register reads it back;
ENC's ILEN reads 0 and ignores writes. A write of a read-only register (STATUS, FAULT, OLEN, CURSOR, FINFO) changes nothing, whatever the
unit is doing: that is DEDUCED in log entry 8. -/
def Obligations.ConfigRegistersReadBack : Prop :=
  ∀ (s : State) (v : Word),
    (s.enc.status ≠ .busy → (s.writeReg .enc .npix v).readReg .enc .npix = v ∧
      s.writeReg .enc .npix v = { s with enc := { s.enc with npix := v } }) ∧
    (s.dec.status ≠ .busy → (s.writeReg .dec .npix v).readReg .dec .npix = v ∧ (s.writeReg .dec .ilen v).readReg .dec .ilen = v ∧
      s.writeReg .dec .npix v = { s with dec := { s.dec with npix := v } } ∧
      s.writeReg .dec .ilen v = { s with dec := { s.dec with ilen := v } }) ∧
    s.writeReg .enc .ilen v = s ∧ s.readReg .enc .ilen = 0 ∧
    ∀ (u : UnitName) (r : Reg), r = .status ∨ r = .fault ∨ r = .olen ∨ r = .cursor ∨ r = .finfo → s.writeReg u r v = s

/-- 10_state.md section 4 (R32, R33, R35, R201): what the read-only registers of both banks show, where the number fits 32 bits (log entry
6). That OLEN and CURSOR show the current value in a BUSY unit too, where R38 says only 'some value between steps', is the model's choice
(log entry 17). -/
def Obligations.ReadOnlyRegisters : Prop :=
  ∀ s : State,
    (s.readReg .enc .ctrl = 0 ∧ s.readReg .dec .ctrl = 0) ∧
    ((s.readReg .enc .status).toNat = match s.enc.status with | .idle => 0 | .busy => 1 | .done => 2 | .fault => 3) ∧
    ((s.readReg .dec .status).toNat = match s.dec.status with | .idle => 0 | .busy => 1 | .done => 2 | .fault => 3) ∧
    ((s.readReg .dec .fault).toNat = match s.dec.fault with
      | .noFault => 0 | .invalidHeader => 1 | .invalidDimensions => 2 | .truncatedStream => 3 | .shapeMismatch => 4
      | .invalidDelta => 5) ∧
    ((s.readReg .enc .fault).toNat = match s.enc.fault with
      | .noFault => 0 | .invalidHeader => 1 | .invalidDimensions => 2 | .truncatedStream => 3 | .shapeMismatch => 4
      | .invalidDelta => 5) ∧
    (s.enc.olen < 2 ^ 32 → (s.readReg .enc .olen).toNat = s.enc.olen) ∧
    (s.enc.i < 2 ^ 32 → (s.readReg .enc .cursor).toNat = s.enc.i) ∧
    (s.enc.finfo < 2 ^ 32 → (s.readReg .enc .finfo).toNat = s.enc.finfo) ∧
    (s.dec.ip < 2 ^ 32 → (s.readReg .dec .olen).toNat = s.dec.ip) ∧
    (s.dec.op < 2 ^ 32 → (s.readReg .dec .cursor).toNat = s.dec.op) ∧
    (s.dec.finfo < 2 ^ 32 → (s.readReg .dec .finfo).toNat = s.dec.finfo)

/-- R212: FAULT is left only by START or RESET, and until then `fault` and `finfo` are sticky: for every step of the whole machine. -/
def Obligations.FaultLeftOnlyByStartOrReset : Prop :=
  ∀ s t : State, step s = .next t →
    (s.dec.status = .fault →
      t.dec.status = .fault ∧ t.dec.fault = s.dec.fault ∧ t.dec.finfo = s.dec.finfo ∨
      (∃ v rest, s.agenda = .writeReg .dec .ctrl v :: rest ∧ ctrlCommand v ≠ .nothing) ∨ ∃ rest, s.agenda = .hardwareReset :: rest) ∧
    (s.enc.status = .fault →
      t.enc.status = .fault ∧ t.enc.fault = s.enc.fault ∧ t.enc.finfo = s.enc.finfo ∨
      (∃ v rest, s.agenda = .writeReg .enc .ctrl v :: rest ∧ ctrlCommand v ≠ .nothing) ∨ ∃ rest, s.agenda = .hardwareReset :: rest)

/-- 60_exceptions.md section 5 (R219): ENC's and DEC's turns commute, so their interleaving cannot be observed. -/
def Obligations.EncAndDecTurnsCommute : Prop :=
  ∀ s : State, ∃ a b t, encTurn s = .next a ∧ decTurn a = .next t ∧ decTurn s = .next b ∧ encTurn b = .next t ∧
    a.dec = s.dec ∧ b.enc = s.enc

/-- 70_reset_and_hazards.md section 2 (R236): a host write of the input buffer changes that cell and nothing else. It is refused while the
unit is BUSY (the model's assumption on the host, U3, log entry 4), and for a unit that is not BUSY a write at or beyond NPIX_MAX or
ILEN_MAX is the fault noSuchAddress (the model's choice, log entry 13). -/
def Obligations.HostLoads : Prop :=
  ∀ (s : State) (a : Nat) (w : Word) (b : Byte),
    (s.enc.status = .busy → hostLoadPix a w s = .refused .busyBufferWrite) ∧
    (s.dec.status = .busy → hostLoadStr a b s = .refused .busyBufferWrite) ∧
    (s.enc.status ≠ .busy → Config.npixMax ≤ a → hostLoadPix a w s = .fault .noSuchAddress) ∧
    (s.dec.status ≠ .busy → Config.ilenMax ≤ a → hostLoadStr a b s = .fault .noSuchAddress) ∧
    (s.enc.status ≠ .busy → a < Config.npixMax → ∃ m, hostLoadPix a w s = .next { s with enc := { s.enc with pix := m } } ∧
      ∀ x, Memory.read? m x = if x = a then some w else Memory.read? s.enc.pix x) ∧
    (s.dec.status ≠ .busy → a < Config.ilenMax → ∃ m, hostLoadStr a b s = .next { s with dec := { s.dec with str := m } } ∧
      ∀ x, Memory.read? m x = if x = a then some b else Memory.read? s.dec.str x)

/-- 70_reset_and_hazards.md section 2 (R236, R237) and R211: the output is readable in DONE only, and is then the bytes below `olen`, or
the pixels below `op`. That DEC's result has `op` pixels, where R237 says the first NPIX, is DEDUCED in log entry 9; that the buffer is
unreadable outside DONE, and not arbitrary, is the model's choice between the two treatments of R211 (log entry 5). -/
def Obligations.ResultReadableInDoneOnly : Prop :=
  (∀ e : EncUnit, (e.status ≠ .done → e.result = none) ∧
    (e.status = .done → ∃ bs, e.result = some bs ∧ bs.length = e.olen ∧ ∀ j (h : j < bs.length), bs[j] = e.strRead j)) ∧
  ∀ d : DecUnit, (d.status ≠ .done → d.result = none) ∧
    (d.status = .done → ∃ ps, d.result = some ps ∧ ps.length = d.op ∧ ∀ j (h : j < ps.length), ps[j] = d.pixRead j)

/-! ## Invariants and whole invocations -/

/-- The state after reset meets the invariant. -/
def Obligations.ResetMeetsInv : Prop := State.reset.Inv

/-- 10_state.md section 8 (the list R43, derived) with R115: every step keeps the invariant, from every state that meets it and for every
agenda: the memories stay canonical, every LUT slot holds zero or a pixel that hashes to it, the run counter is 0..61, `prev` is the last
pixel, the cursors are bounded, the only faults are those of R208. -/
def Obligations.StepKeepsInv : Prop := ∀ s t : State, s.Inv → step s = .next t → t.Inv

/-- 70_reset_and_hazards.md sections 2 and 4 (R237, R253): from a state that meets the invariant, with nothing on the agenda and DEC not
BUSY, a BUSY ENC is BUSY until exactly NPIX - i steps are made and is then DONE. That ENC gets every turn then is the default order, the
model's choice (log entry 1); InvocationsEndUnderEveryInterleaving says the same of every order and with DEC in any status. -/
def Obligations.EncInvocationEnds : Prop :=
  ∀ s : State, s.Inv → s.enc.status = .busy → s.dec.status ≠ .busy → s.agenda = [] →
    (∀ k, k < s.enc.npix.toNat - s.enc.i → (runSteps k s).enc.status = .busy) ∧
    (runSteps (s.enc.npix.toNat - s.enc.i) s).enc.status = .done

/-- 70_reset_and_hazards.md sections 2 and 4 (R237, R253): from a state that meets the invariant, with nothing on the agenda, a BUSY DEC
is in DONE or FAULT after at most NPIX - op steps. That DEC moves first then is the default order, the model's choice (log entry 1);
InvocationsEndUnderEveryInterleaving says the same of every order. -/
def Obligations.DecInvocationEnds : Prop :=
  ∀ s : State, s.Inv → s.dec.status = .busy → s.agenda = [] →
    ∃ k, k ≤ s.dec.npix.toNat - s.dec.op ∧ ((runSteps k s).dec.status = .done ∨ (runSteps k s).dec.status = .fault)

/-- 70_reset_and_hazards.md section 2 (R235): the host's turns from reset lead to the start of the invocation. That the host's actions
come from the agenda is the model's choice (log entries 1 and 11). -/
def Obligations.HostTurnsLaunchInvocation : Prop :=
  (∀ ps : List Pixel, ps.length ≤ Config.npixMax →
    runSteps (ps.length + 2) { State.reset with agenda := encHostTurns ps } = encLaunch ps) ∧
  ∀ (n : Nat) (bytes : List Byte), n ≤ Config.npixMax → bytes.length ≤ Config.ilenMax →
    runSteps (bytes.length + 3) { State.reset with agenda := decHostTurns n bytes } = decLaunch n bytes

/-- 42_encoder.md sections 2 and 11 (R143, R161, R162): N pixels equal to START_PIXEL are encoded as RUN 62 chunks and one RUN for the
rest, flushed at the last pixel. -/
def Obligations.StartPixelsEncodeAsRuns : Prop :=
  ∀ n : Nat, 0 < n → n ≤ Config.npixMax →
    (encInvocation (List.replicate n ⟨0, 0, 0, 255⟩)).result =
      some (List.replicate (n / 62) 0xFD ++ if n % 62 = 0 then [] else [BitVec.ofNat 8 (0xC0 + (n % 62 - 1))])

/-- 42_encoder.md section 10 (R159, derived): the stream of N pixels has at most 5N and at least N/62 bytes. -/
def Obligations.EncodedLengthBounds : Prop :=
  ∀ ps : List Pixel, ps ≠ [] → ps.length ≤ Config.npixMax →
    (encInvocation ps).olen ≤ 5 * ps.length ∧ ps.length ≤ 62 * (encInvocation ps).olen

/-- 70_reset_and_hazards.md section 3 (R247, derived), chunk by chunk: whatever chunk ENC selects for a pixel that is no run, DEC executes
it to that pixel when its `prev` is ENC's; for INDEX alone, when also its slot for the pixel, after the pre-write, is ENC's. -/
def Obligations.SelectedChunkDecodesToItsPixel : Prop :=
  ∀ (prev px : Pixel) (lut : Lut) (i : Instr) (s : State), (select prev lut px).chunk? px = some i → s.dec.prev = prev →
    (∀ k, i = .index k → Lut.read (Lut.write s.dec.lut prev) k = Lut.read lut k) →
    ∃ t, exec i s = .next t ∧ t.dec.prev = px ∧ t.dec.op = s.dec.op + 1 ∧
      Memory.read? t.dec.pix s.dec.op = some (wordOfPixel px)

/-- 43_decoder.md section 9 (R190): DEC run on ENC's output with the same N reaches DONE with PIX equal to `P` and `dec.ip == enc.olen`,
for every `P` of positive length a unit accepts. The one premise added is that the stream's length fits the register ILEN (log entry 7).
-/
def Obligations.DecodeInvertsEncode : Prop :=
  ∀ ps : List Pixel, ps ≠ [] → ps.length ≤ Config.npixMax →
    ∃ bytes, (encInvocation ps).result = some bytes ∧
      (bytes.length ≤ Config.ilenMax →
        (decInvocation ps.length bytes).status = .done ∧ (decInvocation ps.length bytes).result = some ps ∧
        (decInvocation ps.length bytes).ip = (encInvocation ps).olen)

/-! ## FRAME -/

/-- R133: `decodeHeader(encodeHeader(w,h,c,s)) == {w,h,c,s}` for all valid fields; and only the bytes of a header decode to it. -/
def Obligations.HeaderRoundTrip : Prop :=
  (∀ h : Header, 0 < h.width.toInt → 0 < h.height.toInt → (h.channels = 3 ∨ h.channels = 4) → (h.colorSpace = 0 ∨ h.colorSpace = 1) →
    ∃ bs, hdrEncode h = .ok bs ∧ bs.length = 14 ∧ hdrDecode bs = .ok h) ∧
  ∀ (h : Header) (bs : List Byte), hdrDecode bs = .ok h → hdrEncode h = .ok bs

/-- 41_framing.md section 3 (R128) and R213: which failure HDR.DECODE raises, in the order of its tests. -/
def Obligations.HeaderDecodeFailures : Prop :=
  ∀ bs : List Byte,
    (bs.length ≠ 14 → hdrDecode bs = .error (.raised .invalidHeader 0)) ∧
    (bs.take 4 ≠ Config.magic → hdrDecode bs = .error (.raised .invalidHeader 0)) ∧
    (bs.getD 12 0 ≠ 3 → bs.getD 12 0 ≠ 4 → hdrDecode bs = .error (.raised .invalidHeader 0)) ∧
    (bs.length = 14 → bs.getD 13 0 ≠ 0 → bs.getD 13 0 ≠ 1 → hdrDecode bs = .error (.raised .invalidHeader 0)) ∧
    (bs.length = 14 → bs.take 4 = Config.magic → bs.getD 12 0 = 3 ∨ bs.getD 12 0 = 4 → bs.getD 13 0 = 0 ∨ bs.getD 13 0 = 1 →
      (bs.drop 4).take 4 = [0, 0, 0, 0] ∨ (bs.getD 4 0).msb = true ∨ (bs.drop 8).take 4 = [0, 0, 0, 0] ∨ (bs.getD 8 0).msb = true →
      hdrDecode bs = .error (.raised .invalidDimensions 0))

/-- 41_framing.md sections 2 and 5 (R127, R129, R131, R132) and R213: the failures FRAME raises before it starts a unit, HDR.ENCODE's
among them, in the order of its tests. That TruncatedStream of FILE.DECODE carries 0 (R201 gives only `dec.ip` of a chunk), that more than
NPIX_MAX pixels are InvalidDimensions already here, and that a stream longer than ILEN_MAX is refused, are the model's choice (log entry
12). -/
def Obligations.FileFailures : Prop :=
  (∀ h : Header, ¬((h.channels = 3 ∨ h.channels = 4) ∧ (h.colorSpace = 0 ∨ h.colorSpace = 1)) →
    hdrEncode h = .error (.raised .invalidHeader 0)) ∧
  (∀ h : Header, (h.channels = 3 ∨ h.channels = 4) → (h.colorSpace = 0 ∨ h.colorSpace = 1) → h.width.toInt ≤ 0 ∨ h.height.toInt ≤ 0 →
    hdrEncode h = .error (.raised .invalidDimensions 0)) ∧
  (∀ (h : Header) (ps : List Pixel) (stop : FrameStop), hdrEncode h = .error stop → fileEncode h ps = .error stop) ∧
  (∀ (h : Header) (ps : List Pixel) (hdr : List Byte), hdrEncode h = .ok hdr → ps.length ≠ h.width.toNat * h.height.toNat →
    fileEncode h ps = .error (.raised .shapeMismatch 0)) ∧
  (∀ (h : Header) (ps : List Pixel) (hdr : List Byte), hdrEncode h = .ok hdr → ps.length = h.width.toNat * h.height.toNat →
    Config.npixMax < ps.length → fileEncode h ps = .error (.raised .invalidDimensions 0)) ∧
  (∀ f : List Byte, f.length < 14 → fileDecode f = .error (.raised .invalidHeader 0)) ∧
  (∀ (f : List Byte) (stop : FrameStop), 14 ≤ f.length → hdrDecode (f.take 14) = .error stop → fileDecode f = .error stop) ∧
  (∀ (f : List Byte) (h : Header), 14 ≤ f.length → f.length < 22 → hdrDecode (f.take 14) = .ok h →
    fileDecode f = .error (.raised .truncatedStream 0)) ∧
  (∀ (f : List Byte) (h : Header), 22 ≤ f.length → hdrDecode (f.take 14) = .ok h → Config.npixMax < h.width.toNat * h.height.toNat →
    fileDecode f = .error (.raised .invalidDimensions 0)) ∧
  ∀ (f : List Byte) (h : Header), Config.ilenMax + 22 < f.length → hdrDecode (f.take 14) = .ok h →
    h.width.toNat * h.height.toNat ≤ Config.npixMax → fileDecode f = .error .streamTooLong

/-- 41_framing.md section 6 (R134, derived): FILE.DECODE of what FILE.ENCODE built gives back the header and the pixels, for a file whose
stream ILEN_MAX admits, that is all but its 14 + 8 bytes of frame (log entry 12). -/
def Obligations.FileRoundTrip : Prop :=
  ∀ (h : Header) (ps : List Pixel) (f : List Byte), fileEncode h ps = .ok f → f.length ≤ Config.ilenMax + 22 → fileDecode f = .ok (h, ps)

/-! ## Invocations under every order of turns -/

/-- 70_reset_and_hazards.md sections 2 and 4 (R237, R253) with R219: however the steps of ENC and DEC interleave, a BUSY ENC is BUSY until
NPIX - i of the turns were its own and is then DONE, and a BUSY DEC is in DONE or FAULT once NPIX - op of them were its own. That the
turns come from the agenda is the model's choice (log entry 1). -/
def Obligations.InvocationsEndUnderEveryInterleaving : Prop :=
  ∀ (s : State) (turns rest : List Turn), s.Inv → s.agenda = turns ++ rest → (∀ t ∈ turns, t = .encStep ∨ t = .decStep) →
    (s.enc.status = .busy →
      (turns.count .encStep < s.enc.npix.toNat - s.enc.i → (runSteps turns.length s).enc.status = .busy) ∧
      (s.enc.npix.toNat - s.enc.i ≤ turns.count .encStep → (runSteps turns.length s).enc.status = .done)) ∧
    (s.dec.status = .busy → s.dec.npix.toNat - s.dec.op ≤ turns.count .decStep →
      (runSteps turns.length s).dec.status = .done ∨ (runSteps turns.length s).dec.status = .fault)
end

