-- ==== Sys2Proof/Laws/Lut.lean ====
section
/-! SUPPORT. The laws of the colour cache. -/

namespace Sys2Proof.Machine

/-- A read of any slot after LUT.WRITE (R113, R114, R240). -/
theorem Lut.read_write (lut : Lut) (p : Pixel) (k : BitVec 6) :
    Lut.read (Lut.write lut p) k = if k = hash p then p else Lut.read lut k := by
  unfold Lut.read Lut.write
  rw [Vector.getElem_set]
  by_cases h : k = hash p
  · subst h; simp
  · have : ¬(hash p).toNat = k.toNat := fun h' => h (BitVec.eq_of_toNat_eq h'.symm)
    simp [h, this]

@[simp] theorem Lut.read_write_self (lut : Lut) (p : Pixel) : Lut.read (Lut.write lut p) (hash p) = p := by
  simp [Lut.read_write]

theorem Lut.read_write_ne {lut : Lut} {p : Pixel} {k : BitVec 6} (h : k ≠ hash p) :
    Lut.read (Lut.write lut p) k = Lut.read lut k := by
  simp [Lut.read_write, h]

/-- A slot never written since START reads the zero pixel (R113). -/
@[simp] theorem Lut.read_clear (k : BitVec 6) : Lut.read Lut.clear k = Config.zeroPixel := by
  simp [Lut.read, Lut.clear]

theorem Lut.hit_iff (lut : Lut) (p : Pixel) : Lut.hit lut p = true ↔ Lut.read lut (hash p) = p := by
  simp [Lut.hit]

/-- Two caches that read alike are equal. -/
theorem Lut.ext_read {l l' : Lut} (h : ∀ k, Lut.read l k = Lut.read l' k) : l = l' := by
  apply Vector.ext
  intro i hi
  have := h (BitVec.ofNat 6 i)
  simpa [Lut.read, Nat.mod_eq_of_lt hi] using this

end Sys2Proof.Machine
end

