-- ==== Sys2Proof/Laws/Memory.lean ====
section
/-! SUPPORT. The laws of memory: a read after a write, and that every memory operation keeps the canonical form. -/

namespace Sys2Proof.Machine

variable {α : Type}

/-- A read after a write: the written address gives the value, every other address what it gave before. -/
theorem Memory.read?_write (m : Mem α) (a b : Nat) (v : α) :
    Memory.read? (Memory.write m a v) b = if b = a then some v else Memory.read? m b := by
  induction m with
  | nil => simp [Memory.write, Memory.read?]
  | cons x m ih =>
    obtain ⟨k, w⟩ := x
    simp only [Memory.write]
    split
    · simp [Memory.read?]
    · split
      · subst_vars
        simp only [Memory.read?]
        split <;> simp_all
      · simp only [Memory.read?, ih]
        by_cases hbk : b = k
        · subst hbk
          have : b ≠ a := by omega
          simp [this]
        · simp [hbk]

@[simp] theorem Memory.read?_write_self (m : Mem α) (a : Nat) (v : α) :
    Memory.read? (Memory.write m a v) a = some v := by
  simp [Memory.read?_write]

/-- The addresses of a written memory are the old ones and the one written. -/
theorem Memory.mem_write {m : Mem α} {a : Nat} {v : α} {x : Nat × α} (h : x ∈ Memory.write m a v) :
    x.1 = a ∨ x ∈ m := by
  induction m with
  | nil => simp_all [Memory.write]
  | cons y m ih =>
    obtain ⟨k, w⟩ := y
    simp only [Memory.write] at h
    split at h
    · rcases List.mem_cons.1 h with rfl | h
      · exact .inl rfl
      · exact .inr h
    · split at h
      · rcases List.mem_cons.1 h with rfl | h
        · exact .inl rfl
        · exact .inr (List.mem_cons_of_mem _ h)
      · rcases List.mem_cons.1 h with rfl | h
        · exact .inr List.mem_cons_self
        · exact (ih h).imp id (List.mem_cons_of_mem _)

/-- A write keeps the canonical form. -/
theorem Memory.write_wf {m : Mem α} (h : Memory.wf m) (a : Nat) (v : α) : Memory.wf (Memory.write m a v) := by
  induction m with
  | nil => simp [Memory.write, Memory.wf]
  | cons y m ih =>
    obtain ⟨k, w⟩ := y
    obtain ⟨hk, hm⟩ := List.pairwise_cons.1 h
    simp only [Memory.write]
    split
    case isTrue hak =>
      refine List.pairwise_cons.2 ⟨fun x hx => ?_, h⟩
      rcases List.mem_cons.1 hx with rfl | hx
      · exact hak
      · exact Nat.lt_trans hak (hk x hx)
    case isFalse hak =>
      split
      case isTrue heq => subst heq; exact List.pairwise_cons.2 ⟨hk, hm⟩
      case isFalse hne =>
        refine List.pairwise_cons.2 ⟨fun x hx => ?_, ih hm⟩
        rcases Memory.mem_write hx with hx | hx
        · show k < x.1
          omega
        · exact hk x hx

/-- A read after a fill: the filled addresses give the value, every other address what it gave before. -/
theorem Memory.read?_fill (m : Mem α) (a n b : Nat) (v : α) :
    Memory.read? (Memory.fill m a n v) b = if a ≤ b ∧ b < a + n then some v else Memory.read? m b := by
  induction n with
  | zero =>
    simp [Memory.fill]
  | succ n ih =>
    simp only [Memory.fill, Memory.read?_write, ih]
    by_cases h : b = a + n
    · have : a ≤ b ∧ b < a + (n + 1) := by omega
      simp [h]
    · have : (a ≤ b ∧ b < a + (n + 1)) ↔ (a ≤ b ∧ b < a + n) := by omega
      simp [h, this]

/-- A fill keeps the canonical form. -/
theorem Memory.fill_wf {m : Mem α} (h : Memory.wf m) (a n : Nat) (v : α) : Memory.wf (Memory.fill m a n v) := by
  induction n with
  | zero => exact h
  | succ n ih => exact Memory.write_wf ih _ _

/-- A read after writing a list: the list's addresses give its values, every other address what it gave before. -/
theorem Memory.read?_writeList (m : Mem α) (a b : Nat) (vs : List α) :
    Memory.read? (Memory.writeList m a vs) b =
      if h : a ≤ b ∧ b < a + vs.length then some (vs[b - a]'(by omega)) else Memory.read? m b := by
  induction vs generalizing m a with
  | nil =>
    simp [Memory.writeList]
  | cons v vs ih =>
    rw [Memory.writeList, ih, Memory.read?_write]
    by_cases hb : b = a
    · subst hb
      simp
    · by_cases hi : a + 1 ≤ b ∧ b < a + 1 + vs.length
      · have h2 : a ≤ b ∧ b < a + (v :: vs).length := by simp only [List.length_cons]; omega
        rw [dif_pos hi, dif_pos h2]
        have h3 : b - a = (b - (a + 1)) + 1 := by omega
        simp [h3]
      · have h2 : ¬(a ≤ b ∧ b < a + (v :: vs).length) := by simp only [List.length_cons]; omega
        rw [dif_neg hi, dif_neg h2, if_neg hb]

/-- Writing a list keeps the canonical form. -/
theorem Memory.writeList_wf {m : Mem α} (h : Memory.wf m) (a : Nat) (vs : List α) : Memory.wf (Memory.writeList m a vs) := by
  induction vs generalizing m a with
  | nil => exact h
  | cons v vs ih => exact ih (Memory.write_wf h a v) (a + 1)

/-- Writing two lists one after the other is writing their concatenation. -/
theorem Memory.writeList_append (m : Mem α) (a : Nat) (us vs : List α) :
    Memory.writeList m a (us ++ vs) = Memory.writeList (Memory.writeList m a us) (a + us.length) vs := by
  induction us generalizing m a with
  | nil => rfl
  | cons u us ih =>
    simp only [List.cons_append, Memory.writeList, ih, List.length_cons]
    congr 1
    omega

end Sys2Proof.Machine
end

