-- ==== Sys2Proof/Laws/State.lean ====
section
/-! SUPPORT. One lemma per field per update of the state, each true by rfl, so that no proof unfolds a record update. -/

namespace Sys2Proof.Machine

section Enc
variable (e : EncUnit) (px : Pixel) (b : Byte) (code : FaultCode) (info : Nat)

@[simp] theorem EncUnit.raise_prev : (e.raise code info).prev = e.prev := rfl
@[simp] theorem EncUnit.raise_run : (e.raise code info).run = e.run := rfl
@[simp] theorem EncUnit.raise_lut : (e.raise code info).lut = e.lut := rfl
@[simp] theorem EncUnit.raise_i : (e.raise code info).i = e.i := rfl
@[simp] theorem EncUnit.raise_olen : (e.raise code info).olen = e.olen := rfl
@[simp] theorem EncUnit.raise_status : (e.raise code info).status = .fault := rfl
@[simp] theorem EncUnit.raise_fault : (e.raise code info).fault = code := rfl
@[simp] theorem EncUnit.raise_finfo : (e.raise code info).finfo = info := rfl
@[simp] theorem EncUnit.raise_npix : (e.raise code info).npix = e.npix := rfl
@[simp] theorem EncUnit.raise_pix : (e.raise code info).pix = e.pix := rfl
@[simp] theorem EncUnit.raise_str : (e.raise code info).str = e.str := rfl

@[simp] theorem EncUnit.strAppend_prev : (e.strAppend b).prev = e.prev := rfl
@[simp] theorem EncUnit.strAppend_run : (e.strAppend b).run = e.run := rfl
@[simp] theorem EncUnit.strAppend_lut : (e.strAppend b).lut = e.lut := rfl
@[simp] theorem EncUnit.strAppend_i : (e.strAppend b).i = e.i := rfl
@[simp] theorem EncUnit.strAppend_olen : (e.strAppend b).olen = e.olen + 1 := rfl
@[simp] theorem EncUnit.strAppend_status : (e.strAppend b).status = e.status := rfl
@[simp] theorem EncUnit.strAppend_fault : (e.strAppend b).fault = e.fault := rfl
@[simp] theorem EncUnit.strAppend_finfo : (e.strAppend b).finfo = e.finfo := rfl
@[simp] theorem EncUnit.strAppend_npix : (e.strAppend b).npix = e.npix := rfl
@[simp] theorem EncUnit.strAppend_pix : (e.strAppend b).pix = e.pix := rfl
@[simp] theorem EncUnit.strAppend_str : (e.strAppend b).str = Memory.write e.str e.olen b := rfl

@[simp] theorem EncUnit.lutWrite_prev : (e.lutWrite px).prev = e.prev := rfl
@[simp] theorem EncUnit.lutWrite_run : (e.lutWrite px).run = e.run := rfl
@[simp] theorem EncUnit.lutWrite_lut : (e.lutWrite px).lut = Lut.write e.lut px := rfl
@[simp] theorem EncUnit.lutWrite_i : (e.lutWrite px).i = e.i := rfl
@[simp] theorem EncUnit.lutWrite_olen : (e.lutWrite px).olen = e.olen := rfl
@[simp] theorem EncUnit.lutWrite_status : (e.lutWrite px).status = e.status := rfl
@[simp] theorem EncUnit.lutWrite_fault : (e.lutWrite px).fault = e.fault := rfl
@[simp] theorem EncUnit.lutWrite_finfo : (e.lutWrite px).finfo = e.finfo := rfl
@[simp] theorem EncUnit.lutWrite_npix : (e.lutWrite px).npix = e.npix := rfl
@[simp] theorem EncUnit.lutWrite_pix : (e.lutWrite px).pix = e.pix := rfl
@[simp] theorem EncUnit.lutWrite_str : (e.lutWrite px).str = e.str := rfl

@[simp] theorem EncUnit.finish_prev : (e.finish px).prev = px := rfl
@[simp] theorem EncUnit.finish_run : (e.finish px).run = e.run := rfl
@[simp] theorem EncUnit.finish_lut : (e.finish px).lut = e.lut := rfl
@[simp] theorem EncUnit.finish_i : (e.finish px).i = e.i + 1 := rfl
@[simp] theorem EncUnit.finish_olen : (e.finish px).olen = e.olen := rfl
@[simp] theorem EncUnit.finish_status : (e.finish px).status = completion (e.i + 1) e.npix.toNat e.status := rfl
@[simp] theorem EncUnit.finish_fault : (e.finish px).fault = e.fault := rfl
@[simp] theorem EncUnit.finish_finfo : (e.finish px).finfo = e.finfo := rfl
@[simp] theorem EncUnit.finish_npix : (e.finish px).npix = e.npix := rfl
@[simp] theorem EncUnit.finish_pix : (e.finish px).pix = e.pix := rfl
@[simp] theorem EncUnit.finish_str : (e.finish px).str = e.str := rfl

end Enc

section Dec
variable (d : DecUnit) (px : Pixel) (cnt len : Nat) (code : FaultCode) (info : Nat)

@[simp] theorem DecUnit.raise_prev : (d.raise code info).prev = d.prev := rfl
@[simp] theorem DecUnit.raise_lut : (d.raise code info).lut = d.lut := rfl
@[simp] theorem DecUnit.raise_ip : (d.raise code info).ip = d.ip := rfl
@[simp] theorem DecUnit.raise_op : (d.raise code info).op = d.op := rfl
@[simp] theorem DecUnit.raise_status : (d.raise code info).status = .fault := rfl
@[simp] theorem DecUnit.raise_fault : (d.raise code info).fault = code := rfl
@[simp] theorem DecUnit.raise_finfo : (d.raise code info).finfo = info := rfl
@[simp] theorem DecUnit.raise_npix : (d.raise code info).npix = d.npix := rfl
@[simp] theorem DecUnit.raise_ilen : (d.raise code info).ilen = d.ilen := rfl
@[simp] theorem DecUnit.raise_str : (d.raise code info).str = d.str := rfl
@[simp] theorem DecUnit.raise_pix : (d.raise code info).pix = d.pix := rfl

@[simp] theorem DecUnit.preWrite_prev : d.preWrite.prev = d.prev := rfl
@[simp] theorem DecUnit.preWrite_lut : d.preWrite.lut = Lut.write d.lut d.prev := rfl
@[simp] theorem DecUnit.preWrite_ip : d.preWrite.ip = d.ip := rfl
@[simp] theorem DecUnit.preWrite_op : d.preWrite.op = d.op := rfl
@[simp] theorem DecUnit.preWrite_status : d.preWrite.status = d.status := rfl
@[simp] theorem DecUnit.preWrite_fault : d.preWrite.fault = d.fault := rfl
@[simp] theorem DecUnit.preWrite_finfo : d.preWrite.finfo = d.finfo := rfl
@[simp] theorem DecUnit.preWrite_npix : d.preWrite.npix = d.npix := rfl
@[simp] theorem DecUnit.preWrite_ilen : d.preWrite.ilen = d.ilen := rfl
@[simp] theorem DecUnit.preWrite_str : d.preWrite.str = d.str := rfl
@[simp] theorem DecUnit.preWrite_pix : d.preWrite.pix = d.pix := rfl

@[simp] theorem DecUnit.finish_prev : (d.finish px cnt len).prev = px := rfl
@[simp] theorem DecUnit.finish_lut : (d.finish px cnt len).lut = d.lut := rfl
@[simp] theorem DecUnit.finish_ip : (d.finish px cnt len).ip = d.ip + len := rfl
@[simp] theorem DecUnit.finish_op : (d.finish px cnt len).op = d.op + cnt := rfl
@[simp] theorem DecUnit.finish_status :
    (d.finish px cnt len).status = completion (d.op + cnt) d.npix.toNat d.status := rfl
@[simp] theorem DecUnit.finish_fault : (d.finish px cnt len).fault = d.fault := rfl
@[simp] theorem DecUnit.finish_finfo : (d.finish px cnt len).finfo = d.finfo := rfl
@[simp] theorem DecUnit.finish_npix : (d.finish px cnt len).npix = d.npix := rfl
@[simp] theorem DecUnit.finish_ilen : (d.finish px cnt len).ilen = d.ilen := rfl
@[simp] theorem DecUnit.finish_str : (d.finish px cnt len).str = d.str := rfl
@[simp] theorem DecUnit.finish_pix :
    (d.finish px cnt len).pix = Memory.fill d.pix d.op cnt (wordOfPixel px) := rfl

end Dec

/-! The completion test. -/

theorem completion_eq {cursor n : Nat} (h : cursor = n) (st : Status) : completion cursor n st = .done := if_pos h

theorem completion_ne {cursor n : Nat} (h : cursor ≠ n) (st : Status) : completion cursor n st = st := if_neg h

end Sys2Proof.Machine
end

