-- ==== Sys2Proof/Laws/Step.lean ====
section
/-! SUPPORT. What each shared operation of a turn can do, said once: the end of a DEC step, `raise`, the fetch, a turn of either unit, and
the step of the machine. -/

namespace Sys2Proof.Machine

/-! The step of the machine. -/

theorem step_of_cons {s : State} {t : Turn} {rest : List Turn} (h : s.agenda = t :: rest) :
    step s = takeTurn t { s with agenda := rest } := by
  simp only [step, advance, h]

theorem step_of_nil {s : State} (h : s.agenda = []) : step s = takeTurn (defaultTurn s) s := by
  simp only [step, advance, h]

/-- A run of steps, one step at a time. -/
theorem runSteps_of_next {s t : State} (h : step s = .next t) (n : Nat) : runSteps (n + 1) s = runSteps n t := by
  simp only [runSteps, h]

/-! The shared operations of a DEC step. -/

/-- The end of a DEC step does what the frame says and nothing else. -/
theorem decProduce_produces (px : DecUnit → Pixel) (cnt len : Nat) (s : State) :
    ∃ t, decProduce px cnt len s = .next t ∧ DecProduces s t (px s.dec.preWrite) cnt len := by
  refine ⟨_, rfl, ?_⟩
  constructor
  case pix_written =>
    intro j hj
    have : s.dec.op ≤ s.dec.op + j ∧ s.dec.op + j < s.dec.op + cnt := by omega
    simp [Memory.read?_fill, hj]
  case pix_frame =>
    intro a ha
    have : ¬(s.dec.op ≤ a ∧ a < s.dec.op + cnt) := by omega
    simp only [DecUnit.finish_pix, DecUnit.preWrite_pix, DecUnit.preWrite_op, Memory.read?_fill, if_neg this]
  case lut_written => simp
  case lut_frame => intro k hk; simp [Lut.read_write, hk]
  case done => intro h; simp [completion, h]
  case status_frame => intro h; simp [completion, h]
  all_goals first | rfl | exact ⟨rfl, rfl⟩

/-- `raise` in a DEC step leaves nothing of the step but the fault. -/
theorem decRaise_eq (code : FaultCode) (s : State) : decRaise code s = .next (s.decFaulted code) := rfl

/-- `exec` always answers a next state, and never touches ENC or the agenda. -/
theorem exec_next (i : Instr) (s : State) : ∃ d, exec i s = .next { s with dec := d } := by
  cases i with
  | run n =>
    by_cases h : s.dec.npix.toNat < s.dec.op + n
    · exact ⟨_, if_pos h⟩
    · exact ⟨_, if_neg h⟩
  | _ => exact ⟨_, rfl⟩

/-- What `exec` can do: a RUN that does not fit raises ShapeMismatch, and everything else is a completed step of one pixel, or of `n` for
a RUN, of the chunk's length. -/
theorem exec_cases (i : Instr) (s : State) :
    (∃ n, i = .run n ∧ s.dec.npix.toNat < s.dec.op + n ∧ exec i s = .next (s.decFaulted .shapeMismatch)) ∨
    (∃ n, i = .run n ∧ s.dec.op + n ≤ s.dec.npix.toNat ∧
      exec i s = .next { s with dec := s.dec.preWrite.finish s.dec.prev n 1 }) ∨
    ((∀ n, i ≠ .run n) ∧ ∃ px, exec i s = .next { s with dec := s.dec.preWrite.finish px 1 i.length }) := by
  cases i with
  | run n =>
    by_cases h : s.dec.npix.toNat < s.dec.op + n
    · exact .inl ⟨n, rfl, h, if_pos h⟩
    · exact .inr (.inl ⟨n, rfl, Nat.le_of_not_lt h, if_neg h⟩)
  | _ => exact .inr (.inr ⟨nofun, _, rfl⟩)

/-! A turn of a unit. -/

theorem decTurn_not_busy {s : State} (h : s.dec.status ≠ .busy) : decTurn s = .next s := if_neg h

theorem decTurn_some {s : State} {i : Instr} (h : s.dec.status = .busy) (hf : s.dec.fetch = some i) : decTurn s = exec i s := by
  simp [decTurn, h, hf]

theorem decTurn_none {s : State} (h : s.dec.status = .busy) (hf : s.dec.fetch = none) :
    decTurn s = .next (s.decFaulted .truncatedStream) := by
  simp [decTurn, h, hf, decRaise_eq]

theorem encTurn_busy {s : State} (h : s.enc.status = .busy) : encTurn s = .next { s with enc := s.enc.step } := if_pos h

theorem encTurn_not_busy {s : State} (h : s.enc.status ≠ .busy) : encTurn s = .next s := if_neg h

/-- A turn of DEC always answers a next state, and never touches ENC or the agenda. -/
theorem decTurn_next (s : State) : ∃ d, decTurn s = .next { s with dec := d } := by
  by_cases h : s.dec.status = .busy
  · cases hf : s.dec.fetch with
    | none => exact ⟨_, decTurn_none h hf⟩
    | some i => obtain ⟨d, hd⟩ := exec_next i s; exact ⟨d, (decTurn_some h hf).trans hd⟩
  · exact ⟨s.dec, decTurn_not_busy h⟩

/-- A turn of ENC always answers a next state, and never touches DEC or the agenda. -/
theorem encTurn_next (s : State) : ∃ e, encTurn s = .next { s with enc := e } := by
  by_cases h : s.enc.status = .busy
  · exact ⟨_, encTurn_busy h⟩
  · exact ⟨s.enc, encTurn_not_busy h⟩

/-! The fetch. -/

theorem strBytes_length (d : DecUnit) (a n : Nat) : (d.strBytes a n).length = n := by
  induction n generalizing a with
  | zero => rfl
  | succ n ih => simp [DecUnit.strBytes, ih]

theorem chunkLen_pos (b0 : Byte) : 1 ≤ chunkLen b0 := by
  unfold chunkLen
  split
  · decide
  · split
    · decide
    · split <;> decide

theorem fetch_none_of_end {d : DecUnit} (h : d.ilen.toNat ≤ d.ip) : d.fetch = none := if_pos h

theorem fetch_none_of_short {d : DecUnit} (h : d.ilen.toNat < d.ip + chunkLen (d.strRead d.ip)) : d.fetch = none := by
  by_cases h0 : d.ilen.toNat ≤ d.ip
  · exact fetch_none_of_end h0
  · simp only [DecUnit.fetch, if_neg h0, if_pos h]

/-- When the chunk lies below ILEN, the fetch is what the decoder reads from its bytes. -/
theorem fetch_of_decode {d : DecUnit} {i : Instr} {rest : List Byte}
    (h : d.ip + chunkLen (d.strRead d.ip) ≤ d.ilen.toNat)
    (hd : decode (d.strBytes d.ip (chunkLen (d.strRead d.ip))) = .ok (i, rest)) : d.fetch = some i := by
  have h0 : ¬d.ilen.toNat ≤ d.ip := by have := chunkLen_pos (d.strRead d.ip); omega
  have h1 : ¬d.ilen.toNat < d.ip + chunkLen (d.strRead d.ip) := by omega
  simp only [DecUnit.fetch, if_neg h0, if_neg h1, hd]

/-- What a fetch says when it finds a chunk. -/
theorem fetch_some {d : DecUnit} {i : Instr} (h : d.fetch = some i) :
    d.ip + chunkLen (d.strRead d.ip) ≤ d.ilen.toNat ∧
      ∃ rest, decode (d.strBytes d.ip (chunkLen (d.strRead d.ip))) = .ok (i, rest) := by
  simp only [DecUnit.fetch] at h
  split at h
  · simp at h
  · split at h
    · simp at h
    · refine ⟨by omega, ?_⟩
      split at h
      case h_1 i' rest hd => exact ⟨rest, by simpa using Option.some.inj h ▸ hd⟩
      case h_2 => simp at h

end Sys2Proof.Machine
end

