-- ==== Sys2Proof/Laws/Encoder.lean ====
section
/-! SUPPORT. What the operations of an ENC step can do, said once each: appending, emission, the flush of a run. -/

namespace Sys2Proof.Machine

/-- Appending bytes writes them from `olen` and moves `olen`, nothing else. -/
theorem appendBytes_eq (e : EncUnit) (bs : List Byte) :
    e.appendBytes bs = { e with str := Memory.writeList e.str e.olen bs, olen := e.olen + bs.length } := by
  induction bs generalizing e with
  | nil => rfl
  | cons b bs ih =>
    rw [EncUnit.appendBytes, ih]
    simp [EncUnit.strAppend, Memory.writeList, Nat.add_assoc, Nat.add_comm 1]

theorem appendBytes_append (e : EncUnit) (as bs : List Byte) : e.appendBytes (as ++ bs) = (e.appendBytes as).appendBytes bs := by
  induction as generalizing e with
  | nil => rfl
  | cons a as ih => exact ih _

/-- Emission of a chunk whose operands are in range appends its bytes. -/
theorem emit_of_wellFormed {i : Instr} (h : i.wellFormed = true) (e : EncUnit) : e.emit i = some (e.appendBytes (encode i)) := by
  simp [EncUnit.emit, pack, h]

/-- Emission of a chunk with an operand outside its range is refused (InvalidDelta, R206). -/
theorem emit_of_not_wellFormed {i : Instr} (h : i.wellFormed = false) (e : EncUnit) : e.emit i = none := by
  simp [EncUnit.emit, pack, h]

theorem run_wellFormed {n : Nat} (h1 : 1 ≤ n) (h2 : n ≤ 62) : (Instr.run n).wellFormed = true := by
  simp [Instr.wellFormed, runInRange, h1, h2]

/-- The flush of a pending run of 1 to 62 pixels. -/
theorem flushRun_eq (e : EncUnit) (h1 : 1 ≤ e.run.toNat) (h2 : e.run.toNat ≤ 62) :
    e.flushRun = some { e.appendBytes (encode (.run e.run.toNat)) with run := 0 } := by
  rw [EncUnit.flushRun, emit_of_wellFormed (run_wellFormed h1 h2), Option.map_some]

/-- Broken run, for a counter as it is between steps: what is pending is flushed, and the counter is 0. -/
theorem breakRun_eq (e : EncUnit) (h : e.run.toNat ≤ 61) :
    e.breakRun =
      some { e.appendBytes (if e.run.toNat = 0 then [] else encode (.run e.run.toNat)) with run := 0 } := by
  by_cases h0 : e.run = 0
  · have h0' : e.run.toNat = 0 := by simp [h0]
    rw [EncUnit.breakRun, if_pos h0, if_pos h0']
    simp only [EncUnit.appendBytes, ← h0]
  · have h0' : e.run.toNat ≠ 0 := fun h' => h0 (BitVec.eq_of_toNat_eq (by simpa using h'))
    rw [EncUnit.breakRun, if_neg h0, if_neg h0', flushRun_eq e (by omega) (by omega)]

/-- The counter after the run branch counts a pixel: no wrap, since it is at most 61 between steps. -/
theorem run_succ_toNat {r : BitVec 6} (h : r.toNat ≤ 61) : (r + 1).toNat = r.toNat + 1 := by
  have h1 : (1 : BitVec 6).toNat = 1 := rfl
  rw [BitVec.toNat_add, h1]
  omega

/-- A step of ENC that no packer refuses. -/
theorem step_of_process {e e' : EncUnit} (h : e.process (e.pixRead e.i) (decide (e.i + 1 = e.npix.toNat)) = some e') :
    e.step = e'.finish (e.pixRead e.i) := by
  simp only [EncUnit.step, h]

end Sys2Proof.Machine
end

