-- ==== Sys2Proof/Laws/HostPort.lean ====
section
/-! SUPPORT. Which command a CTRL value asks for (10_state.md R36), one lemma per case of its two bits. -/

namespace Sys2Proof.Machine

theorem ctrlCommand_of_reset {v : Word} (h : v.getLsbD 1 = true) : ctrlCommand v = .reset := by
  rw [ctrlCommand, if_pos h]

theorem ctrlCommand_of_start {v : Word} (h1 : v.getLsbD 1 = false) (h0 : v.getLsbD 0 = true) : ctrlCommand v = .start := by
  rw [ctrlCommand, h1, h0]; rfl

theorem ctrlCommand_of_neither {v : Word} (h1 : v.getLsbD 1 = false) (h0 : v.getLsbD 0 = false) : ctrlCommand v = .nothing := by
  rw [ctrlCommand, h1, h0]; rfl

/-- With the RESET bit clear no reset is asked for. -/
theorem ctrlCommand_cases {v : Word} (h1 : v.getLsbD 1 = false) : ctrlCommand v = .start ∨ ctrlCommand v = .nothing := by
  cases h0 : v.getLsbD 0
  · exact .inr (ctrlCommand_of_neither h1 h0)
  · exact .inl (ctrlCommand_of_start h1 h0)

end Sys2Proof.Machine
end

