-- ==== Sys2Proof/Laws/Operands.lean ====
section
/-! SUPPORT. The laws of the channel arithmetic (00_scope.md R11). -/

namespace Sys2Proof.Machine

/-- `s8` is the signed reading of the low 8 bits: in range, and equal modulo 256. -/
theorem s8_spec (v : Int) : -128 ≤ s8 v ∧ s8 v ≤ 127 ∧ (s8 v - v) % 256 = 0 := by
  simp only [s8]
  split <;> omega

/-- Adding a channel difference to the channel it was taken from gives the other channel back. -/
theorem add8_sub8 (p x : Byte) : add8 p (sub8 x p) = x := by
  apply BitVec.eq_of_toNat_eq
  have hp := p.isLt
  have hx := x.isLt
  simp only [add8, sub8, s8, BitVec.toNat_ofInt]
  split <;> omega

end Sys2Proof.Machine
end

