-- ==== Sys2Proof/Laws/PerInstr.lean ====
section
/-! SUPPORT. Families of facts about every instruction as syntax, one lemma per constructor of Instr. -/

namespace Sys2Proof.Laws.EncodeLength

/-- The encoding of a chunk has the length of its kind, and its first byte says so (R81, R87): for a RUN whose length is in range. -/
def Statement (i : Instr) : Prop :=
  (encode i).length = i.length ∧ (i.wellFormed = true → (encode i).head?.map chunkLen = some i.length)

theorem rgb (r g b : Byte) : Statement (.rgb r g b) := ⟨rfl, fun _ => rfl⟩

theorem rgba (r g b a : Byte) : Statement (.rgba r g b a) := ⟨rfl, fun _ => rfl⟩

theorem index (k : BitVec 6) : Statement (.index k) := by
  refine ⟨rfl, fun _ => ?_⟩
  revert k
  decide

theorem diff (dr dg db : Int) : Statement (.diff dr dg db) := by
  refine ⟨rfl, fun h => ?_⟩
  simp only [Instr.wellFormed, diffInRange, Bool.and_eq_true, decide_eq_true_eq] at h
  obtain ⟨⟨⟨_, _⟩, _, _⟩, _, _⟩ := h
  interval_cases dr <;> interval_cases dg <;> interval_cases db <;> rfl

theorem luma (dg drg dbg : Int) : Statement (.luma dg drg dbg) := by
  refine ⟨rfl, fun h => ?_⟩
  simp only [Instr.wellFormed, lumaInRange, Bool.and_eq_true, decide_eq_true_eq] at h
  obtain ⟨⟨⟨_, _⟩, _⟩, _⟩ := h
  have key : ∀ v : Fin 64, chunkLen (tagByte Config.tagLuma ||| biased Config.lumaDgBias ((v.val : Int) - 32)) = 2 := by decide
  have h' := key ⟨(dg + 32).toNat, by omega⟩
  have : (((dg + 32).toNat : Nat) : Int) - 32 = dg := by omega
  simp only [this] at h'
  simp only [encode, List.head?_cons, Option.map_some, h', Instr.length]

theorem run (n : Nat) : Statement (.run n) := by
  refine ⟨rfl, fun h => ?_⟩
  simp only [Instr.wellFormed, runInRange, decide_eq_true_eq] at h
  obtain ⟨_, _⟩ := h
  interval_cases n <;> rfl

end Sys2Proof.Laws.EncodeLength
end

