-- ==== Sys2Proof/Tests/Slice0.lean ====
section
/-! SUPPORT. Tests of the model against the spec's own vectors (95_test_vectors.md, named V-… and P… as there, and the examples of the
rules), and for every statement with hypotheses a witness that meets them. No expected value comes from the model. -/

namespace Sys2Proof.Machine.Tests

/-! ## Helpers -/

/-- A pixel from four numbers. -/
def pix (r g b a : Nat) : Pixel := ⟨BitVec.ofNat 8 r, BitVec.ofNat 8 g, BitVec.ofNat 8 b, BitVec.ofNat 8 a⟩

/-- What a next state shows; nothing for a stop. -/
def seen {α : Type} (f : State → α) : Answer → Option α
  | .next t => some (f t)
  | .fault _ => none
  | .refused _ => none

/-- DEC started on `bytes` for `n` pixels, with another `prev` than START leaves. -/
def decAt (prev : Pixel) (n : Nat) (bytes : List Byte) : State :=
  { decLaunch n bytes with dec := { (decLaunch n bytes).dec with prev := prev } }

/-- ENC started on one pixel of nine, with another `prev` and run counter than START leaves, and one pixel already cached. -/
def encAt (prev : Pixel) (run : Nat) (cached px : Pixel) : State :=
  let s := encLaunch [px, px, px, px, px, px, px, px, px]
  { s with enc := { s.enc with prev := prev, run := BitVec.ofNat 6 run, lut := Lut.write s.enc.lut cached } }

/-- `prev`, the pixel produced, `op` and `ip` of DEC. -/
def decView (s : State) : Pixel × Pixel × Nat × Nat := (s.dec.prev, s.dec.pixRead 0, s.dec.op, s.dec.ip)

/-- Status, fault, `finfo`, `ip`, `op` of DEC. -/
def decFault (s : State) : Status × FaultCode × Nat × Nat × Nat := (s.dec.status, s.dec.fault, s.dec.finfo, s.dec.ip, s.dec.op)

/-- The bytes ENC has emitted, and its run counter. -/
def encView (s : State) : List Byte × BitVec 6 := (s.enc.strBytes 0 s.enc.olen, s.enc.run)

/-! ## WellFormed -/

theorem test_diff_dr_too_large_refused : (Instr.diff 2 0 0).wellFormed = false := by decide
theorem test_diff_dg_too_small_refused : (Instr.diff 0 (-3) 0).wellFormed = false := by decide
theorem test_diff_db_too_large_refused : (Instr.diff 0 0 2).wellFormed = false := by decide
theorem test_luma_dg_too_large_refused : (Instr.luma 32 0 0).wellFormed = false := by decide
theorem test_luma_dg_too_small_refused : (Instr.luma (-33) 0 0).wellFormed = false := by decide
theorem test_luma_drg_too_large_refused : (Instr.luma 0 8 0).wellFormed = false := by decide
theorem test_luma_drg_too_small_refused : (Instr.luma 0 (-9) 0).wellFormed = false := by decide
theorem test_luma_dbg_too_large_refused : (Instr.luma 0 0 8).wellFormed = false := by decide
theorem test_luma_dbg_too_small_refused : (Instr.luma 0 0 (-9)).wellFormed = false := by decide
theorem test_run_zero_refused : (Instr.run 0).wellFormed = false := by decide
theorem test_run_63_refused : (Instr.run 63).wellFormed = false := by decide
theorem test_bounds_accepted :
    ([.diff (-2) (-2) (-2), .diff 1 1 1, .luma (-32) (-8) 7, .luma 31 7 (-8), .run 1, .run 62] : List Instr).all Instr.wellFormed = true := by
  decide

/-- R206: a packer refuses an operand outside its range and wraps nothing. -/
theorem test_packers_refuse_out_of_range : pack (.diff 2 0 0) = none ∧ pack (.run 63) = none ∧ pack (.luma 0 8 0) = none := by
  decide

/-! ## Decode and encode: the vectors V-C of section 2.3, both directions -/

theorem test_decode_index : decode [0x35] = .ok (.index 53, []) := rfl
theorem test_decode_index_63 : decode [0x3F] = .ok (.index 63, []) := rfl
theorem test_decode_diff_low : decode [0x40] = .ok (.diff (-2) (-2) (-2), []) := rfl
theorem test_decode_diff_fields : decode [0x5E] = .ok (.diff (-1) 1 0, []) := rfl
theorem test_decode_luma_low : decode [0x80, 0x0F] = .ok (.luma (-32) (-8) 7, []) := rfl
theorem test_decode_luma_payload_like_tag : decode [0xA0, 0xFE] = .ok (.luma 0 7 6, []) := rfl
theorem test_decode_run : decode [0xC0] = .ok (.run 1, []) := rfl
theorem test_decode_run_62 : decode [0xFD] = .ok (.run 62, []) := rfl
theorem test_decode_rgb : decode [0xFE, 0x64, 0x96, 0xC8] = .ok (.rgb 100 150 200, []) := rfl
theorem test_decode_rgba : decode [0xFF, 0x64, 0x96, 0xC8, 0x80] = .ok (.rgba 100 150 200 128, []) := rfl
theorem test_decode_leaves_the_rest : decode [0xC1, 0x79] = .ok (.run 2, [0x79]) := rfl
theorem test_decode_cut_short : decode [0xFE, 1, 2] = .error (.cutShort 4 3) := rfl
theorem test_encode_index : encode (.index 63) = [0x3F] := by decide
theorem test_encode_diff : encode (.diff 1 0 (-1)) = [0x79] := by decide
theorem test_encode_luma : encode (.luma 2 (-3) (-2)) = [0xA2, 0x56] := by decide
theorem test_encode_luma_high : encode (.luma 31 7 (-8)) = [0xBF, 0xF0] := by decide
theorem test_encode_run : encode (.run 62) = [0xFD] := by decide
theorem test_encode_rgb : encode (.rgb 100 150 200) = [0xFE, 0x64, 0x96, 0xC8] := by decide
theorem test_encode_rgba : encode (.rgba 0 0 0 254) = [0xFF, 0, 0, 0, 0xFE] := by decide

/-- R87, the boundaries of the opcode map. -/
theorem test_chunk_lengths :
    ([0x00, 0x3F, 0x40, 0x7F, 0x80, 0xBF, 0xC0, 0xFD, 0xFE, 0xFF] : List Byte).map chunkLen = [1, 1, 1, 1, 2, 2, 1, 1, 4, 5] := by
  decide

/-- The first byte of a row is the low byte of its word (V-C13, V-C20). -/
theorem test_table_word_byte_order :
    decodeTableWord 16 0x56A2 = some (.luma 2 (-3) (-2)) ∧ decodeTableWord 40 0x80C89664FF = some (.rgba 100 150 200 128) := by
  decide

/-! ## HASH and the LUT: V-X and V-L -/

theorem test_hash_start_pixel : hash (pix 0 0 0 255) = 53 := by decide
theorem test_hash_vectors :
    [hash (pix 255 255 255 255), hash (pix 64 64 64 64), hash (pix 128 0 0 255), hash (pix 10 10 10 255), hash (pix 1 0 255 255),
      hash (pix 100 150 200 255), hash (pix 100 150 200 128), hash (pix 7 7 7 7)] = [38, 0, 53, 11, 49, 7, 18, 54] := by
  decide
theorem test_lut_zero_pixel_hits_fresh : Lut.hit Lut.clear (pix 0 0 0 0) = true := by decide
theorem test_lut_start_pixel_misses_fresh : Lut.hit Lut.clear (pix 0 0 0 255) = false := by decide
theorem test_lut_last_writer_wins :
    Lut.read (Lut.write (Lut.write Lut.clear (pix 100 0 0 255)) (pix 36 0 0 255)) 33 = pix 36 0 0 255 := by
  decide
theorem test_lut_zero_pixel_misses_after_overwrite : Lut.hit (Lut.write Lut.clear (pix 5 5 5 255)) (pix 0 0 0 0) = false := by
  decide

/-- R53. -/
theorem test_pixel_word : wordOfPixel (pix 1 2 3 4) = 0x01020304 := by decide

/-! ## DEC, one step each -/

/-- R175's example. -/
theorem test_rgb : seen decView (exec (.rgb 100 150 200) (decAt (pix 11 8 5 255) 9 [])) =
    some (pix 100 150 200 255, pix 100 150 200 255, 1, 4) := by decide
/-- The alpha is that of `prev` (R182). -/
theorem test_rgb_alpha_of_prev : seen decView (exec (.rgb 1 2 3) (decAt (pix 11 8 5 9) 9 [])) = some (pix 1 2 3 9, pix 1 2 3 9, 1, 4) := by
  decide
/-- R176's example. -/
theorem test_rgba : seen decView (exec (.rgba 100 150 200 128) (decAt (pix 11 8 5 255) 9 [])) =
    some (pix 100 150 200 128, pix 100 150 200 128, 1, 5) := by decide
/-- V-D1: the pre-write is visible to the read. -/
theorem test_index_after_pre_write : seen decView (exec (.index 53) (decLaunch 1 [0x35])) =
    some (pix 0 0 0 255, pix 0 0 0 255, 1, 1) := by decide
/-- V-D2. -/
theorem test_index_of_fresh_slot : seen decView (exec (.index 0) (decLaunch 1 [0])) = some (pix 0 0 0 0, pix 0 0 0 0, 1, 1) := by
  decide
/-- R180's example. -/
theorem test_diff : seen decView (exec (.diff 1 0 (-1)) (decAt (pix 0 0 0 255) 9 [])) = some (pix 1 0 255 255, pix 1 0 255 255, 1, 1) := by
  decide
/-- V-D11, second chunk: 255 plus 1 is 0. -/
theorem test_diff_wraps : seen decView (exec (.diff 1 1 1) (decAt (pix 255 255 255 255) 9 [])) =
    some (pix 0 0 0 255, pix 0 0 0 255, 1, 1) := by decide
/-- R181's example. -/
theorem test_luma : seen decView (exec (.luma 2 (-3) (-2)) (decAt (pix 10 10 10 255) 9 [])) =
    some (pix 9 12 10 255, pix 9 12 10 255, 1, 2) := by decide
/-- V-D10. -/
theorem test_luma_from_start : seen decView (exec (.luma 0 7 6) (decLaunch 1 [0xA0, 0xFE])) = some (pix 7 0 6 255, pix 7 0 6 255, 1, 2) := by
  decide
/-- V-D3: a run that fills the output. -/
theorem test_run_fills : seen (fun t => (t.dec.pixels 0 3, decFault t)) (exec (.run 3) (decLaunch 3 [0xC2])) =
    some ([pix 0 0 0 255, pix 0 0 0 255, pix 0 0 0 255], .done, .noFault, 0, 1, 3) := by decide
/-- V-D4: a run that overruns it. -/
theorem test_run_overrun : seen decFault (exec (.run 3) (decLaunch 2 [0xC2])) = some (.fault, .shapeMismatch, 0, 0, 0) := by decide
/-- V-D5, V-D6, V-D7. -/
theorem test_truncated :
    [seen decFault (decTurn (decLaunch 1 [0xFE, 1, 2])), seen decFault (decTurn (decLaunch 1 [0xA0])),
      seen decFault (decTurn (decLaunch 1 []))] =
      [some (.fault, .truncatedStream, 0, 0, 0), some (.fault, .truncatedStream, 0, 0, 0), some (.fault, .truncatedStream, 0, 0, 0)] := by
  decide

/-- P4 before its step 2. -/
def p4 : State :=
  { decLaunch 4 [0xFE, 0x0A, 0x14, 0x1E, 0xC5] with
    dec := { (decLaunch 4 [0xFE, 0x0A, 0x14, 0x1E, 0xC5]).dec with
      prev := pix 10 20 30 255, op := 1, ip := 4, lut := Lut.write Lut.clear (pix 0 0 0 255) } }

/-- P4: the pre-write of the failing step is discarded. -/
theorem test_fault_discards_pre_write :
    seen (fun t => (decFault t, Lut.read t.dec.lut 9, Lut.read t.dec.lut 53)) (decTurn p4) =
      some ((.fault, .shapeMismatch, 4, 4, 1), pix 0 0 0 0, pix 0 0 0 255) := by
  decide

/-- V-D9: DONE after the last pixel, whatever follows. -/
theorem test_trailing_bytes_ignored :
    seen decFault (decTurn (decLaunch 1 [0xC0, 0, 0, 0, 0, 0, 0, 0, 1])) = some (.done, .noFault, 0, 1, 1) := by
  decide

/-! ## ENC, one step each -/

/-- V-E25, the second pixel: the run continues, and no byte. -/
theorem test_enc_run_counts : seen encView (encTurn (encAt (pix 0 0 0 0) 0 (pix 0 0 0 0) (pix 0 0 0 0))) = some ([], 1) := by
  decide
/-- V-E20, i = 61: the 62nd pixel of a run flushes it. -/
theorem test_enc_run_flushes_at_62 :
    seen encView (encTurn (encAt (pix 0 0 0 255) 61 (pix 0 0 0 0) (pix 0 0 0 255))) = some ([0xFD], 0) := by
  decide
/-- V-E1: the last pixel flushes. -/
theorem test_enc_run_flushes_at_end : seen encView (encTurn (encLaunch [pix 0 0 0 255])) = some ([0xC0], 0) := by
  decide
/-- P1 step 6. -/
theorem test_enc_index : seen encView (encTurn (encAt (pix 100 150 200 128) 0 (pix 1 0 255 255) (pix 1 0 255 255))) = some ([0x31], 0) := by
  decide
/-- P1 step 2: a broken run, then DIFF, with the LUT written. -/
theorem test_enc_diff_after_run :
    seen (fun t => (encView t, Lut.read t.enc.lut 49)) (encTurn (encAt (pix 0 0 0 255) 2 (pix 0 0 0 0) (pix 1 0 255 255))) =
      some (([0xC1, 0x79], 0), pix 1 0 255 255) := by
  decide
/-- P1 step 3. -/
theorem test_enc_luma : seen encView (encTurn (encAt (pix 1 0 255 255) 0 (pix 0 0 0 0) (pix 11 8 5 255))) = some ([0xA8, 0xA6], 0) := by
  decide
/-- V-E8: dg = 2 is no DIFF. -/
theorem test_enc_source_pair_is_luma :
    seen encView (encTurn (encAt (pix 10 10 10 255) 0 (pix 10 10 10 255) (pix 9 12 10 255))) = some ([0xA2, 0x56], 0) := by
  decide
/-- V-E12: dr - dg = 8 is no LUMA. -/
theorem test_enc_rgb : seen encView (encTurn (encAt (pix 100 100 100 255) 0 (pix 100 100 100 255) (pix 108 100 100 255))) =
    some ([0xFE, 0x6C, 0x64, 0x64], 0) := by decide
/-- P1 step 5. -/
theorem test_enc_rgba : seen encView (encTurn (encAt (pix 100 150 200 255) 0 (pix 100 150 200 255) (pix 100 150 200 128))) =
    some ([0xFF, 0x64, 0x96, 0xC8, 0x80], 0) := by decide
/-- V-E14: the zero pixel of a fresh encoder is an index hit. -/
theorem test_enc_zero_pixel : seen encView (encTurn (encLaunch [pix 0 0 0 0])) = some ([0x00], 0) := by decide

/-! ## Commands and the host -/

/-- V-F1. -/
theorem test_start_without_pixels :
    (State.reset.writeReg .enc .ctrl 1).readReg .enc .status = 3 ∧ (State.reset.writeReg .enc .ctrl 1).readReg .enc .fault = 2 := by
  decide
/-- V-F3, with a small NPIX_MAX. -/
theorem test_start_with_too_many_pixels : ({ EncUnit.reset with npix := 5 }.start 4).fault = .invalidDimensions := by decide
/-- V-F6. -/
theorem test_start_leaves_fault :
    (({ DecUnit.reset with status := .fault, fault := .truncatedStream, finfo := 7, npix := 1 } : DecUnit).start Config.npixMax) =
      { DecUnit.reset with status := .busy, npix := 1 } := by
  decide
/-- R36: RESET wins over START. -/
theorem test_reset_wins : (p4.writeReg .dec .ctrl 3).readReg .dec .status = 0 := by decide
/-- R230: a hardware reset resets both units and leaves the buffers (R231). -/
theorem test_hardware_reset_turn :
    seen (fun t => (t.dec.status, t.dec.prev, t.dec.op, t.dec.str == p4.dec.str)) (step { p4 with agenda := [.hardwareReset] }) =
      some (.idle, pix 0 0 0 255, 0, true) := by
  decide
/-- ENC's turn on the agenda is its step, DEC BUSY or not (V-E1). -/
theorem test_enc_turn_on_agenda :
    seen encView (step { encLaunch [pix 0 0 0 255] with dec := p4.dec, agenda := [.encStep] }) = some ([0xC0], 0) := by
  decide
theorem test_reset_memory_wf : Memory.wf State.reset.enc.pix ∧ Memory.wf State.reset.dec.str := by decide
/-- The very next step after withFetchWord runs the instruction (V-C17). -/
theorem test_withFetchWord_runs : seen decView (step (State.reset.withFetchWord 8 0xC1)) = some (pix 0 0 0 255, pix 0 0 0 255, 2, 1) := by
  decide

/-! ## FRAME: V-H -/

theorem test_header_encode : hdrEncode ⟨256, 1, 3, 1⟩ = .ok [0x71, 0x6F, 0x69, 0x66, 0, 0, 1, 0, 0, 0, 0, 1, 3, 1] := rfl
theorem test_header_checks_order : hdrEncode ⟨0, 3, 4, 2⟩ = .error (.raised .invalidHeader 0) := rfl
theorem test_header_bad_magic : hdrDecode [0x70, 0x6F, 0x69, 0x66, 0, 0, 0, 2, 0, 0, 0, 3, 4, 0] = .error (.raised .invalidHeader 0) := rfl
theorem test_header_negative_width :
    hdrDecode [0x71, 0x6F, 0x69, 0x66, 0x80, 0, 0, 0, 0, 0, 0, 3, 4, 0] = .error (.raised .invalidDimensions 0) := rfl
theorem test_file_encode : fileEncode ⟨2, 1, 4, 0⟩ [pix 0 0 0 255, pix 0 0 0 255] =
    .ok [0x71, 0x6F, 0x69, 0x66, 0, 0, 0, 2, 0, 0, 0, 1, 4, 0, 0xC1, 0, 0, 0, 0, 0, 0, 0, 1] := rfl
/-- V-H17: the marker is not compared. -/
theorem test_file_decode : fileDecode [0x71, 0x6F, 0x69, 0x66, 0, 0, 0, 2, 0, 0, 0, 1, 4, 0, 0xC1, 0, 0, 0, 0, 0, 0, 0, 0] =
    .ok (⟨2, 1, 4, 0⟩, [pix 0 0 0 255, pix 0 0 0 255]) := rfl

/-! ## Witnesses: for each statement with hypotheses, data that meet all of them, at the ends of their ranges -/

theorem witness_DecodeOfEncode : (Instr.luma (-32) (-8) 7).wellFormed = true ∧ (Instr.run 62).wellFormed = true := by decide

theorem witness_EncodeOfDecode : decode [0xBF, 0xF0, 0x11] = .ok (.luma 31 7 (-8), [0x11]) := rfl

theorem witness_EveryByteStringDecodes_whole : chunkLen 0xFF ≤ ([1, 2, 3, 4] : List Byte).length + 1 := by decide
theorem witness_EveryByteStringDecodes_short : ([1, 2, 3] : List Byte).length + 1 < chunkLen 0xFF := by decide

theorem witness_OpcodeTableAgreesWithDecoder : decode (0xFD :: [0xFE]) = .ok (.run 62, [0xFE]) := rfl

theorem witness_HashNeedsOnlySixBits :
    (pix 64 128 192 255).r.toNat % 64 = (pix 0 0 0 63).r.toNat % 64 ∧ (pix 64 128 192 255).g.toNat % 64 = (pix 0 0 0 63).g.toNat % 64 ∧
      (pix 64 128 192 255).b.toNat % 64 = (pix 0 0 0 63).b.toNat % 64 ∧ (pix 64 128 192 255).a.toNat % 64 = (pix 0 0 0 63).a.toNat % 64 := by
  decide

/-- DEC before a chunk that begins with `b0` of which `ilen` bytes are there. -/
def decBefore (b0 : Byte) (ilen : Nat) : State := decLaunch 1 ((b0 :: [1, 2, 3, 4]).take ilen)

theorem witness_RgbChunk_whole :
    (decBefore 0xFE 4).dec.status = .busy ∧ (decBefore 0xFE 4).dec.strRead (decBefore 0xFE 4).dec.ip = Config.tagRgb ∧
      (decBefore 0xFE 4).dec.ip + 4 ≤ (decBefore 0xFE 4).dec.ilen.toNat := by decide
theorem witness_RgbChunk_short :
    (decBefore 0xFE 3).dec.status = .busy ∧ (decBefore 0xFE 3).dec.strRead (decBefore 0xFE 3).dec.ip = Config.tagRgb ∧
      (decBefore 0xFE 3).dec.ilen.toNat < (decBefore 0xFE 3).dec.ip + 4 := by decide

theorem witness_RgbaChunk_whole :
    (decBefore 0xFF 5).dec.status = .busy ∧ (decBefore 0xFF 5).dec.strRead (decBefore 0xFF 5).dec.ip = Config.tagRgba ∧
      (decBefore 0xFF 5).dec.ip + 5 ≤ (decBefore 0xFF 5).dec.ilen.toNat := by decide
theorem witness_RgbaChunk_short :
    (decBefore 0xFF 4).dec.status = .busy ∧ (decBefore 0xFF 4).dec.strRead (decBefore 0xFF 4).dec.ip = Config.tagRgba ∧
      (decBefore 0xFF 4).dec.ilen.toNat < (decBefore 0xFF 4).dec.ip + 5 := by decide

theorem witness_IndexChunk :
    (decBefore 0x3F 1).dec.status = .busy ∧ (decBefore 0x3F 1).dec.ip < (decBefore 0x3F 1).dec.ilen.toNat ∧
      ((decBefore 0x3F 1).dec.strRead (decBefore 0x3F 1).dec.ip).toNat < 64 := by decide

theorem witness_RunChunk_fits : (decLaunch 62 [0xFD]).dec.op + 62 ≤ (decLaunch 62 [0xFD]).dec.npix.toNat := by decide
theorem witness_RunChunk_overruns : (decLaunch 61 [0xFD]).dec.npix.toNat < (decLaunch 61 [0xFD]).dec.op + 62 := by decide
theorem witness_RunChunk_fetched :
    (decBefore 0xFD 1).dec.status = .busy ∧ (decBefore 0xFD 1).dec.ip < (decBefore 0xFD 1).dec.ilen.toNat ∧
      0xC0 ≤ ((decBefore 0xFD 1).dec.strRead (decBefore 0xFD 1).dec.ip).toNat ∧
      (decBefore 0xFD 1).dec.strRead (decBefore 0xFD 1).dec.ip ≠ Config.tagRgb ∧
      (decBefore 0xFD 1).dec.strRead (decBefore 0xFD 1).dec.ip ≠ Config.tagRgba := by decide

theorem witness_RunOverrunRaisesShapeMismatch_other :
    (∀ n, Instr.index 53 ≠ .run n) ∧ (decBefore 0x35 1).dec.op < (decBefore 0x35 1).dec.npix.toNat ∧
      exec (.index 53) (decBefore 0x35 1) = .next { (decBefore 0x35 1) with dec := (decBefore 0x35 1).dec.preWrite.finish (pix 0 0 0 255) 1 1 } :=
  ⟨fun _ => by simp, by decide, rfl⟩

theorem witness_DiffChunk_low :
    (decBefore 0x40 1).dec.status = .busy ∧ (decBefore 0x40 1).dec.ip < (decBefore 0x40 1).dec.ilen.toNat ∧
      ((decBefore 0x40 1).dec.strRead (decBefore 0x40 1).dec.ip).toNat = 0x40 := by decide
theorem witness_DiffChunk_high :
    (decBefore 0x7F 1).dec.status = .busy ∧ (decBefore 0x7F 1).dec.ip < (decBefore 0x7F 1).dec.ilen.toNat ∧
      ((decBefore 0x7F 1).dec.strRead (decBefore 0x7F 1).dec.ip).toNat = 0x7F := by decide

theorem witness_LumaChunk_whole :
    (decBefore 0xBF 2).dec.status = .busy ∧ (decBefore 0xBF 2).dec.ip + 2 ≤ (decBefore 0xBF 2).dec.ilen.toNat ∧
      ((decBefore 0xBF 2).dec.strRead (decBefore 0xBF 2).dec.ip).toNat = 0xBF ∧
      ((decBefore 0xBF 2).dec.strRead ((decBefore 0xBF 2).dec.ip + 1)).toNat = 1 := by decide
theorem witness_LumaChunk_short :
    (decBefore 0x80 1).dec.status = .busy ∧ ((decBefore 0x80 1).dec.strRead (decBefore 0x80 1).dec.ip).toNat = 0x80 ∧
      (decBefore 0x80 1).dec.ilen.toNat < (decBefore 0x80 1).dec.ip + 2 := by decide

/-- DEC before the RGBA chunk of V-C20, with its turn on the agenda. -/
def decTurnPlanned : State := { decLaunch 1 [0xFF, 0x64, 0x96, 0xC8, 0x80] with agenda := [.decStep, .encStep] }

theorem witness_StepRunsDecodedChunk_planned :
    decTurnPlanned.dec.status = .busy ∧
      decTurnPlanned.dec.ip + chunkLen (decTurnPlanned.dec.strRead decTurnPlanned.dec.ip) ≤ decTurnPlanned.dec.ilen.toNat ∧
      decTurnPlanned.agenda = .decStep :: [.encStep] := by decide
theorem witness_StepRunsDecodedChunk_decoded :
    decode (decTurnPlanned.dec.strBytes decTurnPlanned.dec.ip (chunkLen (decTurnPlanned.dec.strRead decTurnPlanned.dec.ip))) =
      .ok (.rgba 100 150 200 128, []) := rfl
theorem witness_StepRunsDecodedChunk_default :
    (decBefore 0x35 1).dec.status = .busy ∧
      (decBefore 0x35 1).dec.ip + chunkLen ((decBefore 0x35 1).dec.strRead (decBefore 0x35 1).dec.ip) ≤ (decBefore 0x35 1).dec.ilen.toNat ∧
      (decBefore 0x35 1).agenda = [] := by decide
theorem witness_StepRunsDecodedChunk_default_decoded :
    decode ((decBefore 0x35 1).dec.strBytes (decBefore 0x35 1).dec.ip (chunkLen ((decBefore 0x35 1).dec.strRead (decBefore 0x35 1).dec.ip))) =
      .ok (.index 53, []) := rfl

theorem witness_StepRunsDecodedChunk_turns :
    (([.encStep, .decStep, .writeReg .dec .ctrl 1, .loadPix 0 7, .loadStr 0 7, .hardwareReset] : List Turn).all
      fun t => decide ({ State.reset with agenda := [t, .encStep] }.agenda = t :: [.encStep])) = true := by decide
theorem witness_StepRunsDecodedChunk_idle : State.reset.agenda = [] ∧ State.reset.dec.status ≠ .busy := by decide

theorem witness_TruncationCheck_no_byte : (decLaunch 1 []).dec.status = .busy ∧ (decLaunch 1 []).dec.ilen.toNat ≤ (decLaunch 1 []).dec.ip := by
  decide
theorem witness_TruncationCheck_cut_short :
    (decBefore 0xFF 4).dec.status = .busy ∧
      (decBefore 0xFF 4).dec.ilen.toNat < (decBefore 0xFF 4).dec.ip + chunkLen ((decBefore 0xFF 4).dec.strRead (decBefore 0xFF 4).dec.ip) := by
  decide
theorem witness_TruncationCheck_whole :
    (decBefore 0xFF 5).dec.status = .busy ∧ (decBefore 0xFF 5).dec.ip < (decBefore 0xFF 5).dec.ilen.toNat ∧
      (decBefore 0xFF 5).dec.ip + chunkLen ((decBefore 0xFF 5).dec.strRead (decBefore 0xFF 5).dec.ip) ≤ (decBefore 0xFF 5).dec.ilen.toNat := by
  decide

theorem witness_FaultEntryDiscardsTheStep :
    p4.dec.status = .busy ∧ decTurn p4 = .next (p4.decFaulted .shapeMismatch) ∧ (p4.decFaulted .shapeMismatch).dec.status = .fault :=
  ⟨rfl, rfl, rfl⟩

/-- The bytes of another input that agrees with V-D9 on the chunk at offset 0 and nowhere else. -/
theorem witness_DecReadsOnlyItsChunk :
    ∀ a, (decLaunch 1 [0xC0, 0, 0]).dec.ip ≤ a →
      a < (decLaunch 1 [0xC0, 0, 0]).dec.ip + chunkLen ((decLaunch 1 [0xC0, 0, 0]).dec.strRead (decLaunch 1 [0xC0, 0, 0]).dec.ip) →
      a < (decLaunch 1 [0xC0, 0, 0]).dec.ilen.toNat →
      Memory.read? [(0, (0xC0 : Byte)), (1, 0xFE)] a = Memory.read? (decLaunch 1 [0xC0, 0, 0]).dec.str a := by
  intro a _ h _
  have h1 : (decLaunch 1 [0xC0, 0, 0]).dec.ip + chunkLen ((decLaunch 1 [0xC0, 0, 0]).dec.strRead (decLaunch 1 [0xC0, 0, 0]).dec.ip) = 1 := by
    decide
  obtain rfl : a = 0 := by omega
  decide

theorem witness_NoStepUnlessBusy : (p4.decFaulted .shapeMismatch).dec.status ≠ .busy ∧ State.reset.enc.status ≠ .busy := by decide

theorem witness_EncRunBranch_flush_at_62 :
    (encAt (pix 0 0 0 255) 61 (pix 0 0 0 0) (pix 0 0 0 255)).EncReady (pix 0 0 0 255) ∧
      pix 0 0 0 255 = (encAt (pix 0 0 0 255) 61 (pix 0 0 0 0) (pix 0 0 0 255)).enc.prev ∧
      (encAt (pix 0 0 0 255) 61 (pix 0 0 0 0) (pix 0 0 0 255)).enc.run.toNat + 1 = 62 :=
  ⟨⟨by decide, by decide, by decide⟩, by decide, by decide⟩
theorem witness_EncRunBranch_flush_at_end :
    (encLaunch [pix 0 0 0 255]).EncReady (pix 0 0 0 255) ∧ pix 0 0 0 255 = (encLaunch [pix 0 0 0 255]).enc.prev ∧
      (encLaunch [pix 0 0 0 255]).enc.i + 1 = (encLaunch [pix 0 0 0 255]).enc.npix.toNat :=
  ⟨⟨by decide, by decide, by decide⟩, by decide, by decide⟩
theorem witness_EncRunBranch_count :
    (encAt (pix 0 0 0 255) 60 (pix 0 0 0 0) (pix 0 0 0 255)).EncReady (pix 0 0 0 255) ∧
      pix 0 0 0 255 = (encAt (pix 0 0 0 255) 60 (pix 0 0 0 0) (pix 0 0 0 255)).enc.prev ∧
      (encAt (pix 0 0 0 255) 60 (pix 0 0 0 0) (pix 0 0 0 255)).enc.run.toNat + 1 ≠ 62 ∧
      (encAt (pix 0 0 0 255) 60 (pix 0 0 0 0) (pix 0 0 0 255)).enc.i + 1 ≠
        (encAt (pix 0 0 0 255) 60 (pix 0 0 0 0) (pix 0 0 0 255)).enc.npix.toNat :=
  ⟨⟨by decide, by decide, by decide⟩, by decide, by decide, by decide⟩

/-- P1 step 6 with a run of 61 pending. -/
theorem witness_EncIndexBranch :
    (encAt (pix 100 150 200 128) 61 (pix 1 0 255 255) (pix 1 0 255 255)).EncReady (pix 1 0 255 255) ∧
      pix 1 0 255 255 ≠ (encAt (pix 100 150 200 128) 61 (pix 1 0 255 255) (pix 1 0 255 255)).enc.prev ∧
      Lut.read (encAt (pix 100 150 200 128) 61 (pix 1 0 255 255) (pix 1 0 255 255)).enc.lut (hash (pix 1 0 255 255)) = pix 1 0 255 255 :=
  ⟨⟨by decide, by decide, by decide⟩, by decide, by decide⟩

/-- V-E5, the second pixel: every delta at the lower bound. -/
theorem witness_EncDiffBranch_low :
    (encAt (pix 100 100 100 255) 0 (pix 100 100 100 255) (pix 98 98 98 255)).EncDelta (pix 98 98 98 255) (-2) (-2) (-2) :=
  ⟨⟨by decide, by decide, by decide⟩, by decide, by decide, by decide, by decide, by decide, by decide⟩
/-- V-E4, the second pixel: every delta at the upper bound, across the wrap. -/
theorem witness_EncDiffBranch_high :
    (encAt (pix 255 255 255 255) 0 (pix 255 255 255 255) (pix 0 0 0 255)).EncDelta (pix 0 0 0 255) 1 1 1 :=
  ⟨⟨by decide, by decide, by decide⟩, by decide, by decide, by decide, by decide, by decide, by decide⟩
/-- V-E6: dg, dr - dg at their lower bounds, db - dg at its upper. -/
theorem witness_EncLumaBranch_low :
    (encAt (pix 100 100 100 255) 0 (pix 100 100 100 255) (pix 60 68 75 255)).EncDelta (pix 60 68 75 255) (-40) (-32) (-25) :=
  ⟨⟨by decide, by decide, by decide⟩, by decide, by decide, by decide, by decide, by decide, by decide⟩
/-- V-E7: dg, dr - dg at their upper bounds, db - dg at its lower. -/
theorem witness_EncLumaBranch_high :
    (encAt (pix 100 100 100 255) 0 (pix 100 100 100 255) (pix 138 131 123 255)).EncDelta (pix 138 131 123 255) 38 31 23 :=
  ⟨⟨by decide, by decide, by decide⟩, by decide, by decide, by decide, by decide, by decide, by decide⟩
theorem witness_EncLumaBranch_range :
    ¬(((-2 : Int) ≤ -40 ∧ (-40 : Int) ≤ 1) ∧ ((-2 : Int) ≤ -32 ∧ (-32 : Int) ≤ 1) ∧ ((-2 : Int) ≤ -25 ∧ (-25 : Int) ≤ 1)) ∧
      ((-32 : Int) ≤ -32 ∧ (-32 : Int) ≤ 31) ∧ ((-8 : Int) ≤ -40 - -32 ∧ (-40 - -32 : Int) ≤ 7) ∧
      ((-8 : Int) ≤ -25 - -32 ∧ (-25 - -32 : Int) ≤ 7) := by
  decide
/-- V-E12: dr - dg = 8. -/
theorem witness_EncRgbBranch :
    (encAt (pix 100 100 100 255) 0 (pix 100 100 100 255) (pix 108 100 100 255)).EncDelta (pix 108 100 100 255) 8 0 0 :=
  ⟨⟨by decide, by decide, by decide⟩, by decide, by decide, by decide, by decide, by decide, by decide⟩
theorem witness_EncRgbBranch_range :
    ¬(((-2 : Int) ≤ 8 ∧ (8 : Int) ≤ 1) ∧ ((-2 : Int) ≤ 0 ∧ (0 : Int) ≤ 1) ∧ ((-2 : Int) ≤ 0 ∧ (0 : Int) ≤ 1)) ∧
      ¬(((-32 : Int) ≤ 0 ∧ (0 : Int) ≤ 31) ∧ ((-8 : Int) ≤ 8 - 0 ∧ (8 - 0 : Int) ≤ 7) ∧ ((-8 : Int) ≤ 0 - 0 ∧ (0 - 0 : Int) ≤ 7)) := by
  decide
/-- P1 step 5. -/
theorem witness_EncRgbaBranch :
    (encAt (pix 100 150 200 255) 0 (pix 100 150 200 255) (pix 100 150 200 128)).EncReady (pix 100 150 200 128) ∧
      pix 100 150 200 128 ≠ (encAt (pix 100 150 200 255) 0 (pix 100 150 200 255) (pix 100 150 200 128)).enc.prev ∧
      Lut.read (encAt (pix 100 150 200 255) 0 (pix 100 150 200 255) (pix 100 150 200 128)).enc.lut (hash (pix 100 150 200 128)) ≠
        pix 100 150 200 128 ∧
      (pix 100 150 200 128).a ≠ (encAt (pix 100 150 200 255) 0 (pix 100 150 200 255) (pix 100 150 200 128)).enc.prev.a :=
  ⟨⟨by decide, by decide, by decide⟩, by decide, by decide, by decide⟩

theorem witness_SelectionStaysInRange :
    (select (pix 100 100 100 255) Lut.clear (pix 60 68 75 255)).chunk? (pix 60 68 75 255) = some (.luma (-32) (-8) 7) := by
  decide

/-- ENC in the middle of V-E25: a run of one is pending behind an INDEX. -/
def encMid : State :=
  let s := encLaunch [pix 0 0 0 0, pix 0 0 0 0, pix 0 0 0 0]
  { s with enc := { s.enc with prev := pix 0 0 0 0, run := 1, i := 2, olen := 1, str := [(0, 0)] } }

theorem encMid_busyInv : encMid.enc.BusyInv where
  i_lt := by decide
  run_le := by decide
  run_le_i := by decide
  olen_le := by decide
  prev_eq := by decide
  run_eq := by
    intro j hj hr
    have h1 : encMid.enc.i = 2 := rfl
    have h2 : encMid.enc.run.toNat = 1 := rfl
    obtain rfl : j = 1 := by omega
    decide

theorem witness_EncStepNeverFaults : encMid.enc.status = .busy ∧ encMid.enc.BusyInv := ⟨rfl, encMid_busyInv⟩

theorem witness_EncReadsOnlyItsPixel :
    Memory.read? [(1, (7 : Word)), (2, 0)] encMid.enc.i = Memory.read? encMid.enc.pix encMid.enc.i := by
  decide

/-- ENC out of reset with a pixel count. -/
def encWithNpix (n : Nat) : EncUnit := { EncUnit.reset with npix := BitVec.ofNat 32 n }
/-- DEC out of reset with a pixel count. -/
def decWithNpix (n : Nat) : DecUnit := { DecUnit.reset with npix := BitVec.ofNat 32 n }

theorem witness_StartCommand_command : (0xFFFFFFFD : Word).getLsbD 1 = false ∧ (0xFFFFFFFD : Word).getLsbD 0 = true := by decide
theorem witness_StartCommand_busy : encMid.enc.status = .busy ∧ p4.dec.status = .busy := by decide
theorem witness_StartCommand_rejected :
    ((encWithNpix 0).status ≠ .busy ∧ (encWithNpix 0).npix.toNat = 0) ∧ ((encWithNpix 5).status ≠ .busy ∧ 4 < (encWithNpix 5).npix.toNat) ∧
      ((decWithNpix 0).status ≠ .busy ∧ (decWithNpix 0).npix.toNat = 0) ∧ ((decWithNpix 5).status ≠ .busy ∧ 4 < (decWithNpix 5).npix.toNat) := by
  decide
theorem witness_StartCommand_accepted :
    ((encWithNpix 1).status ≠ .busy ∧ 0 < (encWithNpix 1).npix.toNat ∧ (encWithNpix 1).npix.toNat ≤ 4) ∧
      ((encWithNpix 4).status ≠ .busy ∧ 0 < (encWithNpix 4).npix.toNat ∧ (encWithNpix 4).npix.toNat ≤ 4) ∧
      ((decWithNpix 4).status ≠ .busy ∧ 0 < (decWithNpix 4).npix.toNat ∧ (decWithNpix 4).npix.toNat ≤ 4) := by
  decide

theorem witness_ResetCommand : (2 : Word).getLsbD 1 = true := by decide

theorem witness_ResetState :
    State.reset.enc.pix = [] ∧ State.reset.enc.str = [] ∧ State.reset.dec.str = [] ∧ State.reset.dec.pix = [] ∧ State.reset.agenda = [] := by
  decide

theorem witness_CtrlWrite_reset : (3 : Word).getLsbD 1 = true := by decide
theorem witness_CtrlWrite_start : (1 : Word).getLsbD 1 = false ∧ (1 : Word).getLsbD 0 = true := by decide
theorem witness_CtrlWrite_nothing : (4 : Word).getLsbD 1 = false ∧ (4 : Word).getLsbD 0 = false := by decide
theorem witness_CtrlWrite_busy : (1 : Word).getLsbD 1 = false ∧ encMid.enc.status = .busy ∧ p4.dec.status = .busy := by decide

theorem witness_BusyUnitIgnoresWrites :
    (Reg.ctrl = .ctrl → (1 : Word).getLsbD 1 = false) ∧ encMid.enc.status = .busy ∧ p4.dec.status = .busy := by
  decide

theorem witness_BusyUnitIgnoresWrites_read_only :
    (Reg.olen = .ctrl → (1 : Word).getLsbD 1 = false) ∧ encMid.enc.status = .busy ∧ p4.dec.status = .busy := by
  decide

theorem witness_ConfigRegistersReadBack : State.reset.enc.status ≠ .busy ∧ State.reset.dec.status ≠ .busy := by decide

theorem witness_ConfigRegistersReadBack_read_only :
    (([.status, .fault, .olen, .cursor, .finfo] : List Reg).all
      fun r => decide (r = .status ∨ r = .fault ∨ r = .olen ∨ r = .cursor ∨ r = .finfo)) = true := by decide

theorem witness_ReadOnlyRegisters :
    encMid.enc.olen < 2 ^ 32 ∧ encMid.enc.i < 2 ^ 32 ∧ encMid.enc.finfo < 2 ^ 32 ∧ p4.dec.ip < 2 ^ 32 ∧ p4.dec.op < 2 ^ 32 ∧
      p4.dec.finfo < 2 ^ 32 := by
  decide

/-- Both units in FAULT, and DEC about to be started again. -/
def bothFaulted : State :=
  { enc := { EncUnit.reset with status := .fault, fault := .invalidDimensions }
    dec := { DecUnit.reset with status := .fault, fault := .shapeMismatch, finfo := 4, ip := 4, npix := 1 }
    agenda := [.writeReg .dec .ctrl 1] }

theorem witness_FaultLeftOnlyByStartOrReset_left :
    step bothFaulted = .next { bothFaulted with dec := bothFaulted.dec.start Config.npixMax, agenda := [] } ∧
      bothFaulted.dec.status = .fault ∧ bothFaulted.enc.status = .fault ∧ (bothFaulted.dec.start Config.npixMax).status = .busy :=
  ⟨rfl, rfl, rfl, rfl⟩
theorem witness_FaultLeftOnlyByStartOrReset_kept :
    step { bothFaulted with agenda := [.decStep] } = .next { bothFaulted with agenda := [] } := rfl

theorem witness_HostLoads_refused : encMid.enc.status = .busy ∧ p4.dec.status = .busy := by decide
theorem witness_HostLoads_accepted :
    State.reset.enc.status ≠ .busy ∧ 4294967294 < Config.npixMax ∧ State.reset.dec.status ≠ .busy ∧ 4294967294 < Config.ilenMax := by
  decide

theorem witness_HostLoads_beyond :
    State.reset.enc.status ≠ .busy ∧ Config.npixMax ≤ 4294967295 ∧ State.reset.dec.status ≠ .busy ∧ Config.ilenMax ≤ 4294967295 := by
  decide

theorem witness_ResultReadableInDoneOnly_not_done : encMid.enc.status ≠ .done ∧ p4.dec.status ≠ .done := by decide
theorem witness_ResultReadableInDoneOnly_done :
    ({ EncUnit.reset with status := .done, olen := 1, str := [(0, 0xC0)] } : EncUnit).status = .done ∧
      ({ DecUnit.reset with status := .done, op := 1, pix := [(0, 255)] } : DecUnit).status = .done := by
  decide

/-- The cleared cache meets R115. -/
theorem lut_clear_inv : Lut.Inv Lut.clear := fun _ => .inl (by simp)

/-- A machine with ENC in the middle of V-E25 and DEC before the chunk `RUN 1` of three. -/
def bothBusy : State := { encMid with dec := (decLaunch 3 [0xC0, 0xC1]).dec }

theorem bothBusy_inv : bothBusy.Inv where
  enc :=
    { pix_wf := by decide
      str_wf := by decide
      lut := lut_clear_inv
      str_written := by
        intro j hj
        obtain rfl : j = 0 := by
          have : bothBusy.enc.olen = 1 := rfl
          omega
        decide
      busy := fun _ => encMid_busyInv
      done := fun h => absurd h (by decide)
      faulted := fun h => absurd h (by decide)
      noFault := fun _ => rfl
      finfo := rfl }
  dec :=
    { pix_wf := by decide
      str_wf := by decide
      lut := lut_clear_inv
      pix_written := fun j hj => absurd hj (Nat.not_lt_zero j)
      busy := fun _ => ⟨by decide, by decide, by decide⟩
      faulted := fun h => absurd h (by decide)
      noFault := fun _ => ⟨rfl, rfl⟩ }

/-- The machine that only encodes. -/
def encBusy : State := { bothBusy with dec := DecUnit.reset }

theorem encBusy_inv : encBusy.Inv where
  enc := bothBusy_inv.enc
  dec :=
    { pix_wf := by decide
      str_wf := by decide
      lut := lut_clear_inv
      pix_written := fun j hj => absurd hj (Nat.not_lt_zero j)
      busy := fun h => absurd h (by decide)
      faulted := fun h => absurd h (by decide)
      noFault := fun _ => ⟨rfl, rfl⟩ }

theorem witness_StepKeepsInv : bothBusy.Inv ∧ ∃ t, step bothBusy = .next t := ⟨bothBusy_inv, _, rfl⟩

theorem witness_EncInvocationEnds :
    encBusy.Inv ∧ encBusy.enc.status = .busy ∧ encBusy.dec.status ≠ .busy ∧ encBusy.agenda = [] :=
  ⟨encBusy_inv, by decide, by decide, by decide⟩
theorem witness_EncInvocationEnds_before_the_end : 0 < encBusy.enc.npix.toNat - encBusy.enc.i := by decide

theorem witness_DecInvocationEnds : bothBusy.Inv ∧ bothBusy.dec.status = .busy ∧ bothBusy.agenda = [] :=
  ⟨bothBusy_inv, by decide, by decide⟩

theorem witness_HostTurnsLaunchInvocation :
    ([pix 0 0 0 255, pix 1 2 3 4] : List Pixel).length ≤ Config.npixMax ∧ 4294967295 ≤ Config.npixMax ∧
      ([] : List Byte).length ≤ Config.ilenMax := by
  decide

theorem witness_StartPixelsEncodeAsRuns : 0 < 4294967295 ∧ 4294967295 ≤ Config.npixMax := by decide

theorem witness_EncodedLengthBounds : [pix 0 0 0 255] ≠ [] ∧ [pix 0 0 0 255].length ≤ Config.npixMax := by decide

/-- V-X5 as a first pixel: RGB, although its slot 53 differs between ENC and DEC (R246's exception). -/
theorem witness_SelectedChunkDecodesToItsPixel_slot_53 :
    (select (pix 0 0 0 255) Lut.clear (pix 128 0 0 255)).chunk? (pix 128 0 0 255) = some (.rgb 128 0 0) ∧
      (decLaunch 1 []).dec.prev = pix 0 0 0 255 ∧ (∀ k, Instr.rgb 128 0 0 ≠ .index k) ∧
      Lut.read (Lut.write (decLaunch 1 []).dec.lut (pix 0 0 0 255)) (hash (pix 128 0 0 255)) ≠
        Lut.read Lut.clear (hash (pix 128 0 0 255)) :=
  ⟨by decide, by decide, fun _ => by simp, by decide⟩
/-- V-E14: the zero pixel on a fresh slot 0. -/
theorem witness_SelectedChunkDecodesToItsPixel_index :
    (select (pix 0 0 0 255) Lut.clear (pix 0 0 0 0)).chunk? (pix 0 0 0 0) = some (.index 0) ∧
      (decLaunch 1 [0]).dec.prev = pix 0 0 0 255 ∧
      Lut.read (Lut.write (decLaunch 1 [0]).dec.lut (pix 0 0 0 255)) 0 = Lut.read Lut.clear 0 := by
  decide

theorem witness_DecodeInvertsEncode :
    [pix 255 0 0 255] ≠ [] ∧ [pix 255 0 0 255].length ≤ Config.npixMax ∧ (encInvocation [pix 255 0 0 255]).result = some [0x5A] ∧
      ([0x5A] : List Byte).length ≤ Config.ilenMax := by
  decide

/-- The largest legal dimensions. -/
def largestHeader : Header := ⟨0x7FFFFFFF, 0x7FFFFFFF, 3, 1⟩

theorem witness_HeaderRoundTrip :
    0 < largestHeader.width.toInt ∧ 0 < largestHeader.height.toInt ∧ (largestHeader.channels = 3 ∨ largestHeader.channels = 4) ∧
      (largestHeader.colorSpace = 0 ∨ largestHeader.colorSpace = 1) := by
  decide
theorem witness_HeaderRoundTrip_decoded :
    hdrDecode [0x71, 0x6F, 0x69, 0x66, 0, 0, 0, 2, 0, 0, 0, 3, 4, 0] = .ok ⟨2, 3, 4, 0⟩ := rfl

/-- The headers of V-H6, V-H8, V-H9, V-H10. -/
def badMagic : List Byte := [0x70, 0x6F, 0x69, 0x66, 0, 0, 0, 2, 0, 0, 0, 3, 4, 0]
def badChannels : List Byte := [0x71, 0x6F, 0x69, 0x66, 0, 0, 0, 2, 0, 0, 0, 3, 2, 0]
def badColorSpace : List Byte := [0x71, 0x6F, 0x69, 0x66, 0, 0, 0, 2, 0, 0, 0, 3, 4, 2]
def zeroWidth : List Byte := [0x71, 0x6F, 0x69, 0x66, 0, 0, 0, 0, 0, 0, 0, 3, 4, 0]
def negativeHeight : List Byte := [0x71, 0x6F, 0x69, 0x66, 0, 0, 0, 1, 0x80, 0, 0, 0, 4, 0]

theorem witness_HeaderDecodeFailures :
    (badMagic.take 13).length ≠ 14 ∧ badMagic.take 4 ≠ Config.magic ∧ (badChannels.getD 12 0 ≠ 3 ∧ badChannels.getD 12 0 ≠ 4) ∧
      (badColorSpace.length = 14 ∧ badColorSpace.getD 13 0 ≠ 0 ∧ badColorSpace.getD 13 0 ≠ 1) := by
  decide
theorem witness_HeaderDecodeFailures_dimensions :
    (zeroWidth.length = 14 ∧ zeroWidth.take 4 = Config.magic ∧ zeroWidth.getD 12 0 = 4 ∧ zeroWidth.getD 13 0 = 0 ∧
        (zeroWidth.drop 4).take 4 = [0, 0, 0, 0]) ∧
      (negativeHeight.length = 14 ∧ negativeHeight.take 4 = Config.magic ∧ negativeHeight.getD 12 0 = 4 ∧ negativeHeight.getD 13 0 = 0 ∧
        (negativeHeight.getD 8 0).msb = true) := by
  decide

/-- V-H3, V-H5, V-H4, and the first negative height. -/
theorem witness_FileFailures_encode :
    ¬(((5 : Nat) = 3 ∨ (5 : Nat) = 4) ∧ ((0 : Nat) = 0 ∨ (0 : Nat) = 1)) ∧ ¬(((4 : Nat) = 3 ∨ (4 : Nat) = 4) ∧ ((2 : Nat) = 0 ∨ (2 : Nat) = 1)) ∧
      (((4 : Nat) = 3 ∨ (4 : Nat) = 4) ∧ ((0 : Nat) = 0 ∨ (0 : Nat) = 1) ∧ (0 : Word).toInt ≤ 0 ∧ (0x80000000 : Word).toInt ≤ 0) := by
  decide
theorem witness_FileFailures_header : hdrEncode ⟨0, 3, 4, 0⟩ = .error (.raised .invalidDimensions 0) := rfl
theorem witness_FileFailures_shape :
    hdrEncode ⟨2, 2, 4, 0⟩ = .ok [0x71, 0x6F, 0x69, 0x66, 0, 0, 0, 2, 0, 0, 0, 2, 4, 0] ∧
      [pix 0 0 0 0, pix 0 0 0 0, pix 0 0 0 0].length ≠ (2 : Word).toNat * (2 : Word).toNat :=
  ⟨rfl, by decide⟩
theorem witness_FileFailures_decode :
    (badMagic.take 13).length < 14 ∧ 14 ≤ badMagic.length ∧ 14 ≤ (badMagic ++ [0, 0, 0, 0, 0, 0, 0]).length ∧
      (badMagic ++ [0, 0, 0, 0, 0, 0, 0]).length < 22 := by
  decide
theorem witness_FileFailures_decode_header :
    hdrDecode (badMagic.take 14) = .error (.raised .invalidHeader 0) ∧
      hdrDecode (([0x71, 0x6F, 0x69, 0x66, 0, 0, 0, 2, 0, 0, 0, 1, 4, 0, 0xC1, 0, 0, 0, 0, 0, 0] : List Byte).take 14) = .ok ⟨2, 1, 4, 0⟩ :=
  ⟨rfl, rfl⟩

/-- A header of 65536 x 65536 pixels: one more than NPIX_MAX. -/
def tooManyPixels : List Byte := [0x71, 0x6F, 0x69, 0x66, 0, 1, 0, 0, 0, 1, 0, 0, 4, 0]
theorem witness_FileFailures_too_many_pixels :
    hdrEncode ⟨65536, 65536, 4, 0⟩ = .ok tooManyPixels ∧
      (List.replicate 4294967296 (pix 0 0 0 0)).length = (65536 : Word).toNat * (65536 : Word).toNat ∧
      Config.npixMax < (List.replicate 4294967296 (pix 0 0 0 0)).length ∧ 22 ≤ (tooManyPixels ++ Config.endMarker).length ∧
      hdrDecode ((tooManyPixels ++ Config.endMarker).take 14) = .ok ⟨65536, 65536, 4, 0⟩ := by
  refine ⟨rfl, ?_, ?_, by decide, rfl⟩ <;> rw [List.length_replicate] <;> decide
/-- A file of ILEN_MAX + 23 bytes. -/
theorem witness_FileFailures_stream_too_long :
    Config.ilenMax + 22 < (List.replicate 4294967304 (0 : Byte)).length + 14 ∧ (2 : Word).toNat * (1 : Word).toNat ≤ Config.npixMax := by
  rw [List.length_replicate]
  decide
theorem witness_FileFailures_stream_too_long_header :
    hdrDecode ((([0x71, 0x6F, 0x69, 0x66, 0, 0, 0, 2, 0, 0, 0, 1, 4, 0] : List Byte) ++ List.replicate 4294967304 0).take 14) =
      .ok ⟨2, 1, 4, 0⟩ := by
  rw [show ∀ l : List Byte, List.take 14 ([0x71, 0x6F, 0x69, 0x66, 0, 0, 0, 2, 0, 0, 0, 1, 4, 0] ++ l) =
    [0x71, 0x6F, 0x69, 0x66, 0, 0, 0, 2, 0, 0, 0, 1, 4, 0] from fun _ => rfl]
  rfl

theorem witness_FileRoundTrip :
    fileEncode ⟨1, 1, 3, 0⟩ [pix 255 0 0 255] =
        .ok [0x71, 0x6F, 0x69, 0x66, 0, 0, 0, 1, 0, 0, 0, 1, 3, 0, 0x5A, 0, 0, 0, 0, 0, 0, 0, 1] ∧ 23 ≤ Config.ilenMax + 22 :=
  ⟨rfl, by decide⟩

/-- Both units BUSY, with two turns of DEC around the one ENC needs. -/
def interleaved : State := { bothBusy with agenda := [.decStep, .encStep, .decStep] ++ [.hardwareReset] }

theorem witness_InvocationsEndUnderEveryInterleaving :
    interleaved.Inv ∧ interleaved.agenda = [.decStep, .encStep, .decStep] ++ [.hardwareReset] ∧
      (∀ t ∈ ([.decStep, .encStep, .decStep] : List Turn), t = .encStep ∨ t = .decStep) ∧ interleaved.enc.status = .busy ∧
      interleaved.enc.npix.toNat - interleaved.enc.i ≤ ([.decStep, .encStep, .decStep] : List Turn).count .encStep :=
  ⟨⟨bothBusy_inv.enc, bothBusy_inv.dec⟩, rfl, by decide, by decide, by decide⟩
theorem witness_InvocationsEndUnderEveryInterleaving_before_the_end :
    ([.decStep] : List Turn).count .encStep < interleaved.enc.npix.toNat - interleaved.enc.i ∧
      interleaved.agenda = [.decStep] ++ [.encStep, .decStep, .hardwareReset] := by
  decide
theorem witness_InvocationsEndUnderEveryInterleaving_dec :
    interleaved.dec.status = .busy ∧
      interleaved.dec.npix.toNat - interleaved.dec.op ≤ (List.replicate 3 Turn.decStep).count .decStep := by
  decide

end Sys2Proof.Machine.Tests
end

section
/-! The commands of CTRL (10_state.md R36): what a write to CTRL does to each unit, and that a BUSY unit obeys no command but RESET. -/

namespace Sys2Proof.Machine

/-! A CTRL write hands the command of its value to the unit whose bank was written, and to nothing else. -/

theorem State.writeReg_enc_ctrl (s : State) (v : Word) :
    s.writeReg .enc .ctrl v = { s with enc := s.enc.command (ctrlCommand v) } := rfl

theorem State.writeReg_dec_ctrl (s : State) (v : Word) :
    s.writeReg .dec .ctrl v = { s with dec := s.dec.command (ctrlCommand v) } := rfl

@[simp] theorem EncUnit.command_reset (e : EncUnit) : e.command .reset = e.resetUnit := rfl
@[simp] theorem EncUnit.command_start (e : EncUnit) : e.command .start = e.start Config.npixMax := rfl
@[simp] theorem EncUnit.command_nothing (e : EncUnit) : e.command .nothing = e := rfl

@[simp] theorem DecUnit.command_reset (d : DecUnit) : d.command .reset = d.resetUnit := rfl
@[simp] theorem DecUnit.command_start (d : DecUnit) : d.command .start = d.start Config.npixMax := rfl
@[simp] theorem DecUnit.command_nothing (d : DecUnit) : d.command .nothing = d := rfl

/-- START of a BUSY ENC is ignored, for every NPIX_MAX (R233). -/
theorem EncUnit.start_of_busy {e : EncUnit} (h : e.status = .busy) (npixMax : Nat) : e.start npixMax = e := if_pos h

/-- START of a BUSY DEC is ignored, for every NPIX_MAX (R233). -/
theorem DecUnit.start_of_busy {d : DecUnit} (h : d.status = .busy) (npixMax : Nat) : d.start npixMax = d := if_pos h

/-- With the RESET bit clear, a BUSY ENC obeys no CTRL write. -/
theorem EncUnit.command_of_busy {e : EncUnit} {v : Word} (h : e.status = .busy) (h1 : v.getLsbD 1 = false) :
    e.command (ctrlCommand v) = e := by
  obtain hc | hc := ctrlCommand_cases h1
  · rw [hc, EncUnit.command_start, EncUnit.start_of_busy h]
  · rw [hc, EncUnit.command_nothing]

/-- With the RESET bit clear, a BUSY DEC obeys no CTRL write. -/
theorem DecUnit.command_of_busy {d : DecUnit} {v : Word} (h : d.status = .busy) (h1 : v.getLsbD 1 = false) :
    d.command (ctrlCommand v) = d := by
  obtain hc | hc := ctrlCommand_cases h1
  · rw [hc, DecUnit.command_start, DecUnit.start_of_busy h]
  · rw [hc, DecUnit.command_nothing]

/-- With both command bits clear, a CTRL write changes nothing, in either bank. -/
theorem State.writeReg_ctrl_of_neither {v : Word} (h1 : v.getLsbD 1 = false) (h0 : v.getLsbD 0 = false) (s : State) (u : UnitName) :
    s.writeReg u .ctrl v = s := by
  have hc := ctrlCommand_of_neither h1 h0
  cases u with
  | enc => rw [State.writeReg_enc_ctrl, hc, EncUnit.command_nothing]
  | dec => rw [State.writeReg_dec_ctrl, hc, DecUnit.command_nothing]

/-- Settles O34: the two command bits fix the command of the value, and a BUSY unit obeys none but RESET. -/
theorem ctrlWrite : Obligations.CtrlWrite := by
  intro s v
  rw [State.writeReg_enc_ctrl, State.writeReg_dec_ctrl]
  refine ⟨fun h1 => ?reset, fun h1 h0 => ?start, fun h1 h0 => State.writeReg_ctrl_of_neither h1 h0 s,
    fun h1 => ⟨fun hb => ?encBusy, fun hb => ?decBusy⟩⟩
  case reset => simp [ctrlCommand_of_reset h1]
  case start => simp [ctrlCommand_of_start h1 h0]
  case encBusy => rw [EncUnit.command_of_busy hb h1]
  case decBusy => rw [DecUnit.command_of_busy hb h1]

end Sys2Proof.Machine
end

section
/-! The pixel word (20_memory.md R53): its number, and that `wordOfPixel` and `pixelOfWord` are inverses of each other. -/

namespace Sys2Proof.Machine

/-- A byte appended below a bit vector: the number above it moves up by one digit of base 256. -/
theorem toNat_append_byte {m : Nat} (x : BitVec m) (b : Byte) : (x ++ b).toNat = x.toNat * 2 ^ 8 + b.toNat := by
  rw [BitVec.toNat_append, ← Nat.shiftLeft_add_eq_or_of_lt b.isLt, Nat.shiftLeft_eq]

/-- R53: the four channels are the digits of the pixel word in base 256, R the highest. -/
theorem wordOfPixel_toNat (p : Pixel) :
    (wordOfPixel p).toNat = p.r.toNat * 2 ^ 24 + p.g.toNat * 2 ^ 16 + p.b.toNat * 2 ^ 8 + p.a.toNat := by
  simp only [wordOfPixel, toNat_append_byte]
  omega

/-- A field that lies above the appended byte is the field of the vector without it, 8 places lower. -/
theorem extractLsb'_append_byte {m : Nat} (start : Nat) (x : BitVec m) (b : Byte) :
    (x ++ b).extractLsb' (start + 8) 8 = x.extractLsb' start 8 :=
  BitVec.extractLsb'_append_eq_of_le (Nat.le_add_left 8 start)

/-- Below R lie three bytes, below G two and below B one; with those dropped, each channel is the lowest byte of what is left. -/
@[simp] theorem pixelOfWord_wordOfPixel (p : Pixel) : pixelOfWord (wordOfPixel p) = p := by
  simp only [pixelOfWord, wordOfPixel, extractLsb'_append_byte 16, extractLsb'_append_byte 8, extractLsb'_append_byte 0,
    BitVec.extractLsb'_append_eq_right, BitVec.extractLsb'_eq_self]

/-- Each of the four fields begins where the next lower one ends, so that together they are the whole word. -/
@[simp] theorem wordOfPixel_pixelOfWord (w : Word) : wordOfPixel (pixelOfWord w) = w := by
  rw [wordOfPixel, pixelOfWord, BitVec.extractLsb'_append_extractLsb'_eq_extractLsb',
    BitVec.extractLsb'_append_extractLsb'_eq_extractLsb', BitVec.extractLsb'_append_extractLsb'_eq_extractLsb',
    BitVec.extractLsb'_eq_self] <;> rfl

/-- Settles O6: the number of the word, and the two inverse laws. -/
theorem pixelWordLayout : Obligations.PixelWordLayout := fun p w =>
  ⟨wordOfPixel_toNat p, pixelOfWord_wordOfPixel p, wordOfPixel_pixelOfWord w⟩

end Sys2Proof.Machine
end

section
/-! The header codec (41_framing.md, R126 to R129): which headers have bytes, and that HDR.ENCODE and HDR.DECODE both relate exactly those
headers to exactly those bytes. -/

namespace Sys2Proof.Machine

/-- R53 and R56 name the same four fields of a word: `bigEndian` lists the channels of the pixel that `pixelOfWord` reads. -/
theorem bigEndian_eq_channels (w : Word) :
    bigEndian w = [(pixelOfWord w).r, (pixelOfWord w).g, (pixelOfWord w).b, (pixelOfWord w).a] := rfl

/-- The big-endian bytes of a word put together from four bytes are these bytes. -/
@[simp] theorem bigEndian_append (b3 b2 b1 b0 : Byte) : bigEndian (b3 ++ b2 ++ b1 ++ b0) = [b3, b2, b1, b0] := by
  have hword : (b3 ++ b2 ++ b1 ++ b0 : Word) = wordOfPixel ⟨b3, b2, b1, b0⟩ := rfl
  rw [hword, bigEndian_eq_channels, pixelOfWord_wordOfPixel]

/-- Every word is put together from four bytes. -/
theorem exists_append_eq_word (w : Word) : ∃ b3 b2 b1 b0 : Byte, w = b3 ++ b2 ++ b1 ++ b0 :=
  ⟨_, _, _, _, (wordOfPixel_pixelOfWord w).symm⟩

/-- `dimensionsOk` is the condition of R129. -/
theorem dimensionsOk_iff {w h : Word} : dimensionsOk w h = true ↔ 0 < w.toInt ∧ 0 < h.toInt := by
  simp [dimensionsOk]

/-- The headers that have an encoding (R127, R129). -/
structure Header.Valid (h : Header) : Prop where
  channels : h.channels = 3 ∨ h.channels = 4
  colorSpace : h.colorSpace = 0 ∨ h.colorSpace = 1
  dimensions : dimensionsOk h.width h.height = true

/-- The layout of a header (R126): magic, width, height, channels, colour space. -/
def Header.bytes (h : Header) : List Byte :=
  Config.magic ++ bigEndian h.width ++ bigEndian h.height ++ [BitVec.ofNat 8 h.channels, BitVec.ofNat 8 h.colorSpace]

@[simp] theorem Header.bytes_length (h : Header) : h.bytes.length = 14 := rfl

/-- An operation that first tests for a failure answers exactly when the test finds none and the rest answers. -/
theorem ite_error_eq_ok_iff {ε α : Type} {c : Prop} [Decidable c] {e : ε} {x : Except ε α} {a : α} :
    (if c then .error e else x) = .ok a ↔ ¬c ∧ x = .ok a := by
  by_cases hc : c <;> simp [hc]

/-- HDR.ENCODE gives a valid header its layout and answers for no other header. -/
theorem hdrEncode_eq_ok_iff {h : Header} {bs : List Byte} : hdrEncode h = .ok bs ↔ h.Valid ∧ bs = h.bytes := by
  rw [hdrEncode, ite_error_eq_ok_iff, ite_error_eq_ok_iff, not_not, Bool.not_eq_false, Except.ok.injEq]
  constructor
  · rintro ⟨⟨hch, hcs⟩, hdims, hbs⟩
    exact ⟨⟨hch, hcs, hdims⟩, hbs.symm⟩
  · rintro ⟨⟨hch, hcs, hdims⟩, hbs⟩
    exact ⟨⟨hch, hcs⟩, hdims, hbs.symm⟩

/-- HDR.DECODE reads a valid header back from its layout, which is a list of fourteen bytes once both words are written as bytes. -/
theorem hdrDecode_bytes {h : Header} (hv : h.Valid) : hdrDecode h.bytes = .ok h := by
  obtain ⟨width, height, channels, colorSpace⟩ := h
  obtain ⟨hch, hcs, hdims⟩ := hv
  obtain ⟨w3, w2, w1, w0, rfl⟩ := exists_append_eq_word width
  obtain ⟨h3, h2, h1, h0, rfl⟩ := exists_append_eq_word height
  dsimp only at hch hcs hdims
  obtain rfl | rfl := hch <;> obtain rfl | rfl := hcs <;> simp [Header.bytes, Config.magic, hdrDecode, hdims]

/-- What HDR.DECODE answers is a valid header, read from its own layout. -/
theorem valid_and_bytes_of_hdrDecode {h : Header} {bs : List Byte} (hdec : hdrDecode bs = .ok h) : h.Valid ∧ bs = h.bytes := by
  unfold hdrDecode at hdec
  split at hdec
  case h_2 => cases hdec
  case h_1 =>
    simp only [ite_error_eq_ok_iff, not_not, Bool.not_eq_false, Except.ok.injEq] at hdec
    obtain ⟨hmagic, hch, hcs, hdims, rfl⟩ := hdec
    constructor
    · exact ⟨hch.imp (congrArg BitVec.toNat) (congrArg BitVec.toNat), hcs.imp (congrArg BitVec.toNat) (congrArg BitVec.toNat), hdims⟩
    · simp [Header.bytes, ← hmagic]

/-- HDR.DECODE answers a header exactly on the layout of a valid header, and answers that header. -/
theorem hdrDecode_eq_ok_iff {h : Header} {bs : List Byte} : hdrDecode bs = .ok h ↔ h.Valid ∧ bs = h.bytes :=
  ⟨valid_and_bytes_of_hdrDecode, fun ⟨hv, hbs⟩ => hbs ▸ hdrDecode_bytes hv⟩

/-- Settles O51: both operations relate exactly the valid headers to their layouts. -/
theorem headerRoundTrip : Obligations.HeaderRoundTrip := by
  refine ⟨fun h hw hh hch hcs => ?_, fun h bs hdec => hdrEncode_eq_ok_iff.mpr (hdrDecode_eq_ok_iff.mp hdec)⟩
  have hv : h.Valid := ⟨hch, hcs, dimensionsOk_iff.mpr ⟨hw, hh⟩⟩
  exact ⟨h.bytes, hdrEncode_eq_ok_iff.mpr ⟨hv, rfl⟩, h.bytes_length, hdrDecode_bytes hv⟩

end Sys2Proof.Machine
end

section
/-! The branches of the ENC step (42_encoder.md, R141 to R157) whose chunk carries no channel difference: RUN, INDEX and RGBA. Every
branch is brought to one form, `EncUnit.produced`, and `encTurn_of_process` says once what a turn of ENC with that outcome does. -/

namespace Sys2Proof.Machine

/-! First bytes. -/

/-- A 2-bit tag above a 6-bit field (R82). -/
theorem tagByte_or_ofNat (t : BitVec 2) {v : Nat} (hv : v < 64) : tagByte t ||| BitVec.ofNat 8 v = BitVec.ofNat 8 (t.toNat * 64 + v) := by
  have htag : (tagByte t).toNat = t.toNat <<< 6 := by
    revert t
    decide
  apply BitVec.eq_of_toNat_eq
  rw [BitVec.toNat_or, htag, BitVec.toNat_ofNat, BitVec.toNat_ofNat, Nat.mod_eq_of_lt (by omega : v < 2 ^ 8),
    ← Nat.shiftLeft_add_eq_or_of_lt hv, Nat.shiftLeft_eq, Nat.mod_eq_of_lt (by omega)]

/-- The byte of a RUN chunk of at most 64 pixels (R92, R144). -/
theorem encode_run {n : Nat} (h : n ≤ 64) : encode (.run n) = [BitVec.ofNat 8 (0xC0 + (n - 1))] := by
  rw [encode, tagByte_or_ofNat _ (by omega)]
  rfl

/-- The byte of an INDEX chunk is its slot number (R89). -/
theorem encode_index (k : BitVec 6) : encode (.index k) = [BitVec.ofNat 8 k.toNat] := by
  rw [encode, ← BitVec.ofNat_toNat, tagByte_or_ofNat _ k.isLt, show Config.tagIndex.toNat = 0 from rfl, Nat.zero_mul, Nat.zero_add]

/-! The outcome of a branch. -/

/-- ENC after a branch of its step, before the common end: `bytes` appended, the run counter at `run`, the cache at `lut`, and nothing
else changed. -/
def EncUnit.produced (e : EncUnit) (bytes : List Byte) (run : BitVec 6) (lut : Lut) : EncUnit :=
  { e with str := Memory.writeList e.str e.olen bytes, olen := e.olen + bytes.length, run := run, lut := lut }

/-- A turn of ENC whose branch produced `bytes`, `run` and `lut`: the frame of a completed step, and the cache. -/
theorem encTurn_of_process {s : State} {px : Pixel} {bytes : List Byte} {run : BitVec 6} {lut : Lut} (hs : s.EncReady px)
    (hp : s.enc.process px (decide (s.enc.i + 1 = s.enc.npix.toNat)) = some (s.enc.produced bytes run lut)) :
    ∃ t, encTurn s = .next t ∧ EncAdvances s t px bytes run.toNat ∧ t.enc.lut = lut := by
  obtain ⟨hbusy, -, rfl⟩ := hs
  refine ⟨_, encTurn_busy hbusy, ?_, ?_⟩ <;> rw [step_of_process hp]
  case refine_2 => rfl
  case refine_1 =>
    constructor
    case str_written =>
      intro j hj
      simp [EncUnit.produced, Memory.read?_writeList, hj]
    case str_frame =>
      intro a ha
      have hout : ¬(s.enc.olen ≤ a ∧ a < s.enc.olen + bytes.length) := by omega
      simp [EncUnit.produced, Memory.read?_writeList, hout]
    case done => exact fun h => completion_eq h _
    case status_frame => exact fun h => completion_ne h _
    case fault_frame => exact ⟨rfl, rfl⟩
    all_goals rfl

/-- Emission after a branch's earlier bytes appends to them. -/
theorem emit_produced (e : EncUnit) (bytes : List Byte) (run : BitVec 6) (lut : Lut) {i : Instr} (hi : i.wellFormed = true) :
    (e.produced bytes run lut).emit i = some (e.produced (bytes ++ encode i) run lut) := by
  rw [emit_of_wellFormed hi, appendBytes_eq]
  simp [EncUnit.produced, Memory.writeList_append, Nat.add_assoc]

theorem lutWrite_produced (e : EncUnit) (bytes : List Byte) (run : BitVec 6) (lut : Lut) (px : Pixel) :
    (e.produced bytes run lut).lutWrite px = e.produced bytes run (Lut.write lut px) := rfl

/-- R145: broken run appends the byte of the pending run, if there is one, and leaves the counter at 0. -/
theorem breakRun_eq_produced {e : EncUnit} (h : e.run.toNat ≤ 61) : e.breakRun = some (e.produced e.pendingRunBytes 0 e.lut) := by
  rw [breakRun_eq e h, appendBytes_eq, encode_run (by omega)]
  rfl

/-- The branches with an index hit: the pending run, then the chunk (R145, R146). -/
theorem breakRun_bind_emit {e : EncUnit} (h : e.run.toNat ≤ 61) {i : Instr} (hi : i.wellFormed = true) :
    (e.breakRun.bind fun e' => e'.emit i) = some (e.produced (e.pendingRunBytes ++ encode i) 0 e.lut) := by
  rw [breakRun_eq_produced h, Option.bind_some, emit_produced _ _ _ _ hi]

/-- The branches with an index miss: the pending run, LUT.WRITE, then the chunk (R145, R146). -/
theorem breakRun_bind_lutWrite_emit {e : EncUnit} (h : e.run.toNat ≤ 61) (px : Pixel) {i : Instr} (hi : i.wellFormed = true) :
    (e.breakRun.bind fun e' => (e'.lutWrite px).emit i) =
      some (e.produced (e.pendingRunBytes ++ encode i) 0 (Lut.write e.lut px)) := by
  rw [breakRun_eq_produced h, Option.bind_some, lutWrite_produced, emit_produced _ _ _ _ hi]

/-- A cache to which LUT.WRITE of `px` was made differs from the old one as R146 asks. -/
theorem encLutWritten_of_lut_eq {s t : State} {px : Pixel} (h : t.enc.lut = Lut.write s.enc.lut px) : EncLutWritten s t px where
  written := by rw [h, Lut.read_write_self]
  frame k hk := by rw [h, Lut.read_write_ne hk]

/-! Selection, one lemma per condition tested before the channel differences (R142). -/

theorem select_of_eq_prev {prev px : Pixel} (h : px = prev) (lut : Lut) : select prev lut px = .run := if_pos h

theorem select_of_hit {prev px : Pixel} {lut : Lut} (hne : px ≠ prev) (hhit : Lut.read lut (hash px) = px) :
    select prev lut px = .index (hash px) := by
  rw [select, if_neg hne, if_pos ((Lut.hit_iff lut px).mpr hhit)]

theorem select_of_miss {prev px : Pixel} {lut : Lut} (hne : px ≠ prev) (hmiss : Lut.read lut (hash px) ≠ px) :
    select prev lut px = if px.a = prev.a then selectDelta prev px else .rgba := by
  rw [select, if_neg hne, if_neg (mt (Lut.hit_iff lut px).mp hmiss)]

/-! The run branch (R143). -/

/-- The counted pixel is the 62nd of its run or the last one: the RUN chunk is appended and the counter cleared. -/
theorem absorb_flush {e : EncUnit} {last : Bool} (hrun : e.run.toNat ≤ 61) (hflush : e.run.toNat + 1 = 62 ∨ last = true) :
    e.absorb last = some (e.produced [BitVec.ofNat 8 (0xC0 + e.run.toNat)] 0 e.lut) := by
  have hcount := run_succ_toNat hrun
  rw [EncUnit.absorb, if_pos (by rwa [hcount]), flushRun_eq _ (by rw [hcount]; omega) (by rw [hcount]; omega), hcount,
    encode_run (by omega), appendBytes_eq]
  rfl

/-- Otherwise the pixel is counted and no byte appended. -/
theorem absorb_count {e : EncUnit} {last : Bool} (hrun : e.run.toNat ≤ 61) (hmax : e.run.toNat + 1 ≠ 62) (hlast : last = false) :
    e.absorb last = some (e.produced [] (e.run + 1) e.lut) := by
  have hstay : ¬((e.run + 1).toNat = 62 ∨ last = true) := by
    rw [run_succ_toNat hrun, hlast]
    simpa using hmax
  rw [EncUnit.absorb, if_neg hstay]
  rfl

theorem process_of_eq_prev {e : EncUnit} {px : Pixel} (h : px = e.prev) (last : Bool) : e.process px last = e.absorb last := by
  rw [EncUnit.process, select_of_eq_prev h]

/-- Settles O22: the branch is RUN, and it flushes or counts. -/
theorem encRunBranch : Obligations.EncRunBranch := by
  intro s px hs hprev
  refine ⟨fun hflush => ?flush, fun hmax hlast => ?count⟩
  case flush =>
    refine encTurn_of_process (run := 0) hs ?_
    rw [process_of_eq_prev hprev, absorb_flush hs.run_le (hflush.imp_right decide_eq_true)]
  case count =>
    rw [← run_succ_toNat hs.run_le]
    refine encTurn_of_process hs ?_
    rw [process_of_eq_prev hprev, absorb_count hs.run_le hmax (decide_eq_false hlast)]

/-- Settles O23: the branch is INDEX, whatever the pixel's differences to `prev` are. -/
theorem encIndexBranch : Obligations.EncIndexBranch := by
  intro s px hs hne hhit
  refine encTurn_of_process (run := 0) hs ?_
  rw [EncUnit.process, select_of_hit hne hhit, ← encode_index]
  exact breakRun_bind_emit hs.run_le rfl

/-- Settles O27: after the two failed tests the changed alpha alone decides for RGBA. -/
theorem encRgbaBranch : Obligations.EncRgbaBranch := by
  intro s px hs hne hmiss halpha
  have hproc : s.enc.process px (decide (s.enc.i + 1 = s.enc.npix.toNat)) =
      some (s.enc.produced (s.enc.pendingRunBytes ++ [Config.tagRgba, px.r, px.g, px.b, px.a]) 0 (Lut.write s.enc.lut px)) := by
    rw [EncUnit.process, select_of_miss hne hmiss, if_neg halpha]
    exact breakRun_bind_lutWrite_emit hs.run_le px rfl
  obtain ⟨t, hturn, hadv, hlut⟩ := encTurn_of_process hs hproc
  exact ⟨t, hturn, hadv, encLutWritten_of_lut_eq hlut⟩

end Sys2Proof.Machine
end

section
/-! The decoder by its first byte (30_encoding.md R82 to R94): one equation of `decode` per chunk kind, with the byte's number in place of
its tag bits, and that as many bytes as `chunkLen` asks for are one well-formed chunk. -/

namespace Sys2Proof.Machine

/-! The first byte. -/

/-- The tag of a byte is its number without the low six bits (R83). -/
theorem tagBits_eq_iff {b0 : Byte} {t : BitVec 2} : tagBits b0 = t ↔ b0.toNat / 64 = t.toNat := by
  have hb := b0.isLt
  have ht : (tagBits b0).toNat = b0.toNat / 64 := by
    rw [tagBits, BitVec.extractLsb'_toNat, Nat.shiftRight_eq_div_pow]
    omega
  rw [← BitVec.toNat_inj, ht]

/-- The full-byte tags lie among the bytes of tag `11` (R85). -/
theorem ne_tags_of_lt {b0 : Byte} (h : b0.toNat < 0xC0) : b0 ≠ Config.tagRgb ∧ b0 ≠ Config.tagRgba := by
  constructor <;> (rintro rfl; exact absurd h (by decide))

/-- A byte that is neither full-byte tag is at most 0xFD (R92). -/
theorem toNat_lt_of_ne_tags {b0 : Byte} (hrgb : b0 ≠ Config.tagRgb) (hrgba : b0 ≠ Config.tagRgba) : b0.toNat < 0xFE := by
  have hb := b0.isLt
  have h254 : b0.toNat ≠ 0xFE := fun h => hrgb (BitVec.eq_of_toNat_eq h)
  have h255 : b0.toNat ≠ 0xFF := fun h => hrgba (BitVec.eq_of_toNat_eq h)
  omega

/-- Past the full-byte tags only LUMA is longer than one byte (R87). -/
theorem chunkLen_of_ne_tags {b0 : Byte} (hrgb : b0 ≠ Config.tagRgb) (hrgba : b0 ≠ Config.tagRgba) :
    chunkLen b0 = if b0.toNat / 64 = 2 then 2 else 1 := by
  simp only [chunkLen, if_neg hrgb, if_neg hrgba, tagBits_eq_iff]
  rfl

/-! One equation per chunk kind. -/

theorem decode_rgb (r g b : Byte) (rest : List Byte) : decode (Config.tagRgb :: r :: g :: b :: rest) = .ok (.rgb r g b, rest) := rfl

theorem decode_rgba (r g b a : Byte) (rest : List Byte) :
    decode (Config.tagRgba :: r :: g :: b :: a :: rest) = .ok (.rgba r g b a, rest) := rfl

/-- An INDEX byte is its slot number (R89). -/
theorem decode_index {b0 : Byte} (h : b0.toNat < 0x40) (rest : List Byte) :
    decode (b0 :: rest) = .ok (.index (BitVec.ofNat 6 b0.toNat), rest) := by
  obtain ⟨hrgb, hrgba⟩ := ne_tags_of_lt (b0 := b0) (by omega)
  have htag : tagBits b0 = Config.tagIndex := tagBits_eq_iff.mpr (Nat.div_eq_of_lt h)
  simp only [decode, if_neg hrgb, if_neg hrgba, htag]
  rfl

theorem decode_diff {b0 : Byte} (hlo : 0x40 ≤ b0.toNat) (hhi : b0.toNat < 0x80) (rest : List Byte) :
    decode (b0 :: rest) = .ok (decodeDiff b0, rest) := by
  obtain ⟨hrgb, hrgba⟩ := ne_tags_of_lt (b0 := b0) (by omega)
  have htag : tagBits b0 = Config.tagDiff := tagBits_eq_iff.mpr (by omega : b0.toNat / 64 = 1)
  simp only [decode, if_neg hrgb, if_neg hrgba, htag]
  rfl

theorem decode_luma {b0 : Byte} (hlo : 0x80 ≤ b0.toNat) (hhi : b0.toNat < 0xC0) (b1 : Byte) (rest : List Byte) :
    decode (b0 :: b1 :: rest) = .ok (decodeLuma b0 b1, rest) := by
  obtain ⟨hrgb, hrgba⟩ := ne_tags_of_lt hhi
  have htag : tagBits b0 = Config.tagLuma := tagBits_eq_iff.mpr (by omega : b0.toNat / 64 = 2)
  simp only [decode, if_neg hrgb, if_neg hrgba, htag]
  rfl

/-- A RUN byte is the length of the run less one, above the tag `11` (R92). -/
theorem decode_run {b0 : Byte} (hlo : 0xC0 ≤ b0.toNat) (hrgb : b0 ≠ Config.tagRgb) (hrgba : b0 ≠ Config.tagRgba) (rest : List Byte) :
    decode (b0 :: rest) = .ok (.run (b0.toNat - 0xBF), rest) := by
  have hb := b0.isLt
  have htag : tagBits b0 = Config.tagRun := tagBits_eq_iff.mpr (by omega : b0.toNat / 64 = 3)
  have hrun : (b0.extractLsb' 0 6).toNat + 1 = b0.toNat - 0xBF := by
    rw [BitVec.extractLsb'_toNat, Nat.shiftRight_zero]
    omega
  simp only [decode, if_neg hrgb, if_neg hrgba, htag, hrun]
  rfl

/-! The decoded operands are in range, and the chunk has the length of its kind. -/

theorem decodeDiff_wellFormed (b0 : Byte) : (decodeDiff b0).wellFormed = true := by
  have hdr := (b0.extractLsb' Config.diffDrBit 2).isLt
  have hdg := (b0.extractLsb' Config.diffDgBit 2).isLt
  have hdb := (b0.extractLsb' Config.diffDbBit 2).isLt
  simp only [decodeDiff, Instr.wellFormed, diffInRange, Config.diffBias, Bool.and_eq_true, decide_eq_true_eq]
  omega

theorem decodeLuma_wellFormed (b0 b1 : Byte) : (decodeLuma b0 b1).wellFormed = true := by
  have hdg := (b0.extractLsb' 0 6).isLt
  have hdrg := (b1.extractLsb' Config.lumaDrgBit 4).isLt
  have hdbg := (b1.extractLsb' Config.lumaDbgBit 4).isLt
  simp only [decodeLuma, Instr.wellFormed, lumaInRange, Config.lumaDgBias, Config.lumaDxBias, Bool.and_eq_true, decide_eq_true_eq]
  omega

/-- R87 and R97: as many bytes as the first of them asks for are one well-formed chunk, whatever the other bytes are. -/
theorem exists_decode_of_length {b0 : Byte} {rest : List Byte} (h : rest.length + 1 = chunkLen b0) :
    ∃ i, i.wellFormed = true ∧ i.length = chunkLen b0 ∧ decode (b0 :: rest) = .ok (i, []) := by
  by_cases hrgb : b0 = Config.tagRgb
  · subst hrgb
    match rest, h with
    | [r, g, b], _ => exact ⟨.rgb r g b, rfl, rfl, decode_rgb r g b []⟩
  by_cases hrgba : b0 = Config.tagRgba
  · subst hrgba
    match rest, h with
    | [r, g, b, a], _ => exact ⟨.rgba r g b a, rfl, rfl, decode_rgba r g b a []⟩
  by_cases hluma : b0.toNat / 64 = 2
  · have hlen : chunkLen b0 = 2 := by rw [chunkLen_of_ne_tags hrgb hrgba, if_pos hluma]
    rw [hlen] at h ⊢
    match rest, h with
    | [b1], _ => exact ⟨_, decodeLuma_wellFormed b0 b1, rfl, decode_luma (by omega) (by omega) b1 []⟩
  have hlen : chunkLen b0 = 1 := by rw [chunkLen_of_ne_tags hrgb hrgba, if_neg hluma]
  obtain rfl : rest = [] := List.eq_nil_of_length_eq_zero (by omega)
  rw [hlen]
  rcases Nat.lt_or_ge b0.toNat 0x40 with hindex | hlo
  · exact ⟨_, rfl, rfl, decode_index hindex []⟩
  rcases Nat.lt_or_ge b0.toNat 0x80 with hdiff | hlo
  · exact ⟨_, decodeDiff_wellFormed b0, rfl, decode_diff hlo hdiff []⟩
  · have hmax := toNat_lt_of_ne_tags hrgb hrgba
    exact ⟨_, run_wellFormed (by omega) (by omega), rfl, decode_run (by omega) hrgb hrgba []⟩

end Sys2Proof.Machine
end

section
/-! The chunks that DEC executes (43_decoder.md, R173 and R176 to R179): which bytes select RGBA, INDEX and RUN, what each yields, and when
a BUSY DEC raises TruncatedStream or ShapeMismatch. -/

namespace Sys2Proof.Machine

/-! A turn of a BUSY DEC, by the length of the chunk at `ip`. -/

/-- A chunk of `n` bytes that lies below ILEN is executed. -/
theorem decTurn_of_decode {s : State} {i : Instr} {rest : List Byte} {n : Nat} (hbusy : s.dec.status = .busy)
    (hlen : chunkLen (s.dec.strRead s.dec.ip) = n) (hfit : s.dec.ip + n ≤ s.dec.ilen.toNat)
    (hdec : decode (s.dec.strBytes s.dec.ip n) = .ok (i, rest)) : decTurn s = exec i s := by
  subst hlen
  exact decTurn_some hbusy (fetch_of_decode hfit hdec)

/-- A chunk of `n` bytes that reaches past ILEN is cut short. -/
theorem decTurn_of_short {s : State} {n : Nat} (hbusy : s.dec.status = .busy) (hlen : chunkLen (s.dec.strRead s.dec.ip) = n)
    (hshort : s.dec.ilen.toNat < s.dec.ip + n) : decTurn s = .next (s.decFaulted .truncatedStream) := by
  subst hlen
  exact decTurn_none hbusy (fetch_none_of_short hshort)

/-- The bytes of the chunk at an offset of the input decode to a well-formed chunk of their length. -/
theorem exists_decode_strBytes (d : DecUnit) (a : Nat) :
    ∃ i, i.wellFormed = true ∧ i.length = chunkLen (d.strRead a) ∧ decode (d.strBytes a (chunkLen (d.strRead a))) = .ok (i, []) := by
  obtain ⟨n, hn⟩ : ∃ n, chunkLen (d.strRead a) = n + 1 := Nat.exists_eq_add_one.mpr (chunkLen_pos _)
  have hlen : (d.strBytes (a + 1) n).length + 1 = chunkLen (d.strRead a) := by rw [strBytes_length, hn]
  have hbytes : d.strBytes a (chunkLen (d.strRead a)) = d.strRead a :: d.strBytes (a + 1) n := by rw [hn, DecUnit.strBytes]
  rw [hbytes]
  exact exists_decode_of_length hlen

/-- Settles O18: the two reasons of an empty fetch, and otherwise the chunk that the bytes at `ip` always are. -/
theorem truncationCheck : Obligations.TruncationCheck := by
  intro s hbusy
  refine ⟨fun h => decTurn_none hbusy (h.elim fetch_none_of_end fetch_none_of_short), fun _ hfit => ?_⟩
  obtain ⟨i, hwf, hlen, hdec⟩ := exists_decode_strBytes s.dec s.dec.ip
  exact ⟨i, hwf, hlen, hdec, decTurn_of_decode hbusy rfl hfit hdec⟩

/-- Settles O11: the tag fixes the length 5, and the four bytes after it are the operands. -/
theorem rgbaChunk : Obligations.RgbaChunk := by
  have hlen : ∀ {s : State}, s.dec.strRead s.dec.ip = Config.tagRgba → chunkLen (s.dec.strRead s.dec.ip) = 5 := fun h => by rw [h]; rfl
  refine ⟨fun r g b a s => decProduce_produces (fun _ => ⟨r, g, b, a⟩) 1 5 s, fun s hbusy htag hfit => ?_,
    fun s hbusy htag hshort => decTurn_of_short hbusy (hlen htag) hshort⟩
  refine decTurn_of_decode hbusy (hlen htag) hfit (rest := []) ?_
  rw [← decode_rgba, ← htag]
  rfl

/-- Settles O12: the slot is read from the cache of the pre-write, where `prev` stands at its hash. -/
theorem indexChunk : Obligations.IndexChunk := by
  refine ⟨fun k s => ?_, fun s hbusy hin hindex => ?_⟩
  · rw [← Lut.read_write]
    exact decProduce_produces (fun d => Lut.read d.lut k) 1 1 s
  · obtain ⟨hrgb, hrgba⟩ := ne_tags_of_lt (b0 := s.dec.strRead s.dec.ip) (by omega)
    have hlen : chunkLen (s.dec.strRead s.dec.ip) = 1 := by rw [chunkLen_of_ne_tags hrgb hrgba, if_neg (by omega)]
    exact decTurn_of_decode hbusy hlen hin (decode_index hindex [])

/-- R179: a RUN that does not fit is a raise and nothing else. -/
theorem exec_run_of_overrun {n : Nat} {s : State} (h : s.dec.npix.toNat < s.dec.op + n) :
    exec (.run n) s = .next (s.decFaulted .shapeMismatch) := if_pos h

/-- R178: a RUN that fits is a completed step of `n` pixels. -/
theorem exec_run_of_fits {n : Nat} {s : State} (h : s.dec.op + n ≤ s.dec.npix.toNat) :
    exec (.run n) s = decProduce (fun d => d.prev) n 1 s := if_neg (Nat.not_lt.mpr h)

/-- Settles O13: the test on the output decides between the two outcomes, and the byte less 0xBF is the length of the run. -/
theorem runChunk : Obligations.RunChunk := by
  refine ⟨fun n s hfit => ?_, fun n s => exec_run_of_overrun, fun s hbusy hin hlo hrgb hrgba => ?_⟩
  · rw [exec_run_of_fits hfit]
    exact decProduce_produces (fun d => d.prev) n 1 s
  · have hmax := toNat_lt_of_ne_tags hrgb hrgba
    have hlen : chunkLen (s.dec.strRead s.dec.ip) = 1 := by rw [chunkLen_of_ne_tags hrgb hrgba, if_neg (by omega)]
    exact ⟨decTurn_of_decode hbusy hlen hin (decode_run hlo hrgb hrgba []), by omega, by omega⟩

/-- Settles O14: every chunk but RUN is a completed step of one pixel, for which there is room. -/
theorem runOverrunRaisesShapeMismatch : Obligations.RunOverrunRaisesShapeMismatch := by
  refine ⟨fun n s => exec_run_of_overrun, fun i s t hrun hroom hexec => ?_⟩
  obtain ⟨n, hi, -, -⟩ | ⟨n, hi, -, -⟩ | ⟨-, px, hpx⟩ := exec_cases i s
  · exact absurd hi (hrun n)
  · exact absurd hi (hrun n)
  · cases hexec.symm.trans hpx
    exact ⟨hroom, rfl⟩

end Sys2Proof.Machine
end

section
/-! FAULT is sticky (60_exceptions.md, R212): of a unit in FAULT, every turn keeps STATUS, FAULT and FINFO, save a START or RESET written to
that unit's CTRL and a hardware reset. -/

namespace Sys2Proof.Machine

/-! What the host's writes, other than a command, change of a unit. -/

/-- No register of ENC's bank but CTRL and NPIX takes a write (R37). -/
theorem EncUnit.writeReg_of_ne_ctrl {r : Reg} (hr : r ≠ .ctrl) (e : EncUnit) (v : Word) :
    ∃ n, e.writeReg r v = { e with npix := n } := by
  cases r with
  | ctrl => exact absurd rfl hr
  | npix =>
    by_cases hbusy : e.status = .busy
    · exact ⟨e.npix, if_pos hbusy⟩
    · exact ⟨v, if_neg hbusy⟩
  | _ => exact ⟨e.npix, rfl⟩

/-- No register of DEC's bank but CTRL, NPIX and ILEN takes a write (R37). -/
theorem DecUnit.writeReg_of_ne_ctrl {r : Reg} (hr : r ≠ .ctrl) (d : DecUnit) (v : Word) :
    ∃ n l, d.writeReg r v = { d with npix := n, ilen := l } := by
  cases r with
  | ctrl => exact absurd rfl hr
  | npix =>
    by_cases hbusy : d.status = .busy
    · exact ⟨d.npix, d.ilen, if_pos hbusy⟩
    · exact ⟨v, d.ilen, if_neg hbusy⟩
  | ilen =>
    by_cases hbusy : d.status = .busy
    · exact ⟨d.npix, d.ilen, if_pos hbusy⟩
    · exact ⟨d.npix, v, if_neg hbusy⟩
  | _ => exact ⟨d.npix, d.ilen, rfl⟩

/-- When a write of ENC's input buffer is accepted, and what it then does (R236). -/
theorem hostLoadPix_inversion {s t : State} {a : Nat} {w : Word} (h : hostLoadPix a w s = .next t) :
    s.enc.status ≠ .busy ∧ a < Config.npixMax ∧ t = { s with enc := { s.enc with pix := Memory.write s.enc.pix a w } } := by
  unfold hostLoadPix at h
  split_ifs at h with hbusy hbeyond
  cases h
  exact ⟨hbusy, Nat.lt_of_not_le hbeyond, rfl⟩

/-- When a write of DEC's input buffer is accepted, and what it then does (R236). -/
theorem hostLoadStr_inversion {s t : State} {a : Nat} {b : Byte} (h : hostLoadStr a b s = .next t) :
    s.dec.status ≠ .busy ∧ a < Config.ilenMax ∧ t = { s with dec := { s.dec with str := Memory.write s.dec.str a b } } := by
  unfold hostLoadStr at h
  split_ifs at h with hbusy hbeyond
  cases h
  exact ⟨hbusy, Nat.lt_of_not_le hbeyond, rfl⟩

/-! The fields of a unit that FAULT keeps, and the turns that may change them. -/

/-- What FAULT keeps of a unit: its status, its fault code and `finfo`. -/
def State.faultRegs (s : State) : UnitName → Status × FaultCode × Nat
  | .enc => (s.enc.status, s.enc.fault, s.enc.finfo)
  | .dec => (s.dec.status, s.dec.fault, s.dec.finfo)

/-- The turns that R212 lets a unit leave FAULT by: a command in its CTRL, or a hardware reset. -/
def Turn.Commands (turn : Turn) (u : UnitName) : Prop :=
  (∃ v, turn = .writeReg u .ctrl v ∧ ctrlCommand v ≠ .nothing) ∨ turn = .hardwareReset

/-- What `faultRegs` shows is only of the unit named: the agenda is no part of it. -/
@[simp] theorem State.faultRegs_agenda (s : State) (rest : List Turn) (u : UnitName) :
    ({ s with agenda := rest } : State).faultRegs u = s.faultRegs u := by
  cases u <;> rfl

/-- No step of ENC is enabled in FAULT (R221), and none ever touches DEC. -/
theorem encTurn_keeps_faultRegs {s t : State} {u : UnitName} (hf : (s.faultRegs u).1 = .fault) (h : encTurn s = .next t) :
    t.faultRegs u = s.faultRegs u := by
  cases u with
  | enc =>
    have hstatus : s.enc.status = .fault := hf
    cases h.symm.trans (encTurn_not_busy (by simp [hstatus]))
    rfl
  | dec =>
    obtain ⟨e, he⟩ := encTurn_next s
    cases h.symm.trans he
    rfl

/-- No step of DEC is enabled in FAULT (R221), and none ever touches ENC. -/
theorem decTurn_keeps_faultRegs {s t : State} {u : UnitName} (hf : (s.faultRegs u).1 = .fault) (h : decTurn s = .next t) :
    t.faultRegs u = s.faultRegs u := by
  cases u with
  | enc =>
    obtain ⟨d, hd⟩ := decTurn_next s
    cases h.symm.trans hd
    rfl
  | dec =>
    have hstatus : s.dec.status = .fault := hf
    cases h.symm.trans (decTurn_not_busy (by simp [hstatus]))
    rfl

/-- A write of another register than CTRL leaves these fields of both units. -/
theorem writeReg_keeps_faultRegs {r : Reg} (hr : r ≠ .ctrl) (s : State) (w : UnitName) (v : Word) (u : UnitName) :
    (s.writeReg w r v).faultRegs u = s.faultRegs u := by
  cases w with
  | enc =>
    obtain ⟨n, hn⟩ := EncUnit.writeReg_of_ne_ctrl hr s.enc v
    rw [State.writeReg, hn]
    cases u <;> rfl
  | dec =>
    obtain ⟨n, l, hnl⟩ := DecUnit.writeReg_of_ne_ctrl hr s.dec v
    rw [State.writeReg, hnl]
    cases u <;> rfl

/-- A write of CTRL reaches these fields only of the unit whose bank is written, and only by a command. -/
theorem writeReg_ctrl_keeps_faultRegs {w u : UnitName} {v : Word} (h : w = u → ctrlCommand v = .nothing) (s : State) :
    (s.writeReg w .ctrl v).faultRegs u = s.faultRegs u := by
  cases w <;> cases u
  case enc.dec | dec.enc => rfl
  case enc.enc => rw [State.writeReg_enc_ctrl, h rfl, EncUnit.command_nothing]
  case dec.dec => rw [State.writeReg_dec_ctrl, h rfl, DecUnit.command_nothing]

/-- A register write that is no command to the unit keeps these fields of it. -/
theorem writeReg_keeps_faultRegs_or_commands (s : State) (w : UnitName) (r : Reg) (v : Word) (u : UnitName) :
    (s.writeReg w r v).faultRegs u = s.faultRegs u ∨ (Turn.writeReg w r v).Commands u := by
  by_cases hr : r = .ctrl
  · subst hr
    by_cases hcommand : w = u → ctrlCommand v = .nothing
    · exact .inl (writeReg_ctrl_keeps_faultRegs hcommand s)
    · obtain ⟨rfl, hv⟩ := Classical.not_imp.mp hcommand
      exact .inr (.inl ⟨v, rfl, hv⟩)
  · exact .inl (writeReg_keeps_faultRegs hr s w v u)

/-- R212 for one turn of any agent. -/
theorem takeTurn_keeps_faultRegs {turn : Turn} {s t : State} {u : UnitName} (hf : (s.faultRegs u).1 = .fault)
    (h : takeTurn turn s = .next t) : t.faultRegs u = s.faultRegs u ∨ turn.Commands u := by
  cases turn with
  | encStep => exact .inl (encTurn_keeps_faultRegs hf h)
  | decStep => exact .inl (decTurn_keeps_faultRegs hf h)
  | writeReg w r v =>
    cases h
    exact writeReg_keeps_faultRegs_or_commands s w r v u
  | loadPix a w =>
    obtain ⟨-, -, rfl⟩ := hostLoadPix_inversion h
    cases u <;> exact .inl rfl
  | loadStr a b =>
    obtain ⟨-, -, rfl⟩ := hostLoadStr_inversion h
    cases u <;> exact .inl rfl
  | hardwareReset => exact .inr (.inr rfl)

/-- The turn taken by default is a unit's step, never a command. -/
theorem defaultTurn_not_commands (s : State) (u : UnitName) : ¬(defaultTurn s).Commands u := by
  unfold defaultTurn
  split <;> simp [Turn.Commands]

/-- R212 for a step of the machine: the turn that commands the unit is the first of the agenda. -/
theorem step_keeps_faultRegs {s t : State} {u : UnitName} (hf : (s.faultRegs u).1 = .fault) (h : step s = .next t) :
    t.faultRegs u = s.faultRegs u ∨
      (∃ v rest, s.agenda = .writeReg u .ctrl v :: rest ∧ ctrlCommand v ≠ .nothing) ∨ ∃ rest, s.agenda = .hardwareReset :: rest := by
  cases hagenda : s.agenda with
  | nil =>
    rw [step_of_nil hagenda] at h
    exact .inl ((takeTurn_keeps_faultRegs hf h).resolve_right (defaultTurn_not_commands s u))
  | cons turn rest =>
    rw [step_of_cons hagenda] at h
    obtain hkept | ⟨v, rfl, hv⟩ | rfl := takeTurn_keeps_faultRegs ((State.faultRegs_agenda s rest u).symm ▸ hf) h
    · exact .inl (hkept.trans (State.faultRegs_agenda s rest u))
    · exact .inr (.inl ⟨v, rest, rfl, hv⟩)
    · exact .inr (.inr ⟨rest, rfl⟩)

/-- Settles O38: what a step keeps of a unit in FAULT, read field by field for each of the two units. -/
theorem faultLeftOnlyByStartOrReset : Obligations.FaultLeftOnlyByStartOrReset := by
  intro s t h
  refine ⟨fun hf => ?dec, fun hf => ?enc⟩
  case dec => exact (step_keeps_faultRegs (u := .dec) hf h).imp_left fun hkept => by simpa [State.faultRegs, hf] using hkept
  case enc => exact (step_keeps_faultRegs (u := .enc) hf h).imp_left fun hkept => by simpa [State.faultRegs, hf] using hkept

end Sys2Proof.Machine
end

section
/-! START and RESET of a unit (70_reset_and_hazards.md, R230 and R233): what START does in each of its three cases, and what a command in
CTRL does to the unit whose bank was written and to the other one. -/

namespace Sys2Proof.Machine

/-- The START check names the two bad counts of R203. -/
theorem startRejects_iff {npixMax : Nat} {npix : Word} :
    startRejects npixMax npix = true ↔ npix.toNat = 0 ∨ npixMax < npix.toNat := by
  simp [startRejects]

/-- A count that is neither 0 nor above NPIX_MAX passes the START check. -/
theorem startRejects_of_le {npixMax : Nat} {npix : Word} (hpos : 0 < npix.toNat) (hle : npix.toNat ≤ npixMax) :
    ¬startRejects npixMax npix = true := by
  rw [startRejects_iff]
  omega

/-! START of a unit that is not BUSY, by the outcome of the check. -/

theorem EncUnit.start_of_rejected {e : EncUnit} {npixMax : Nat} (hnotBusy : e.status ≠ .busy)
    (hbad : e.npix.toNat = 0 ∨ npixMax < e.npix.toNat) :
    e.start npixMax = { e with status := .fault, fault := .invalidDimensions, finfo := 0 } := by
  rw [EncUnit.start, if_neg hnotBusy, if_pos (startRejects_iff.mpr hbad)]

theorem DecUnit.start_of_rejected {d : DecUnit} {npixMax : Nat} (hnotBusy : d.status ≠ .busy)
    (hbad : d.npix.toNat = 0 ∨ npixMax < d.npix.toNat) :
    d.start npixMax = { d with status := .fault, fault := .invalidDimensions, finfo := 0 } := by
  rw [DecUnit.start, if_neg hnotBusy, if_pos (startRejects_iff.mpr hbad)]

/-- START with a good count differs from a reset in that the unit is BUSY and keeps its NPIX. -/
theorem EncUnit.start_of_accepted {e : EncUnit} {npixMax : Nat} (hnotBusy : e.status ≠ .busy) (hpos : 0 < e.npix.toNat)
    (hle : e.npix.toNat ≤ npixMax) : e.start npixMax = { e.resetUnit with status := .busy, npix := e.npix } := by
  rw [EncUnit.start, if_neg hnotBusy, if_neg (startRejects_of_le hpos hle)]
  rfl

/-- START with a good count differs from a reset in that the unit is BUSY and keeps its NPIX and ILEN. -/
theorem DecUnit.start_of_accepted {d : DecUnit} {npixMax : Nat} (hnotBusy : d.status ≠ .busy) (hpos : 0 < d.npix.toNat)
    (hle : d.npix.toNat ≤ npixMax) :
    d.start npixMax = { d.resetUnit with status := .busy, npix := d.npix, ilen := d.ilen } := by
  rw [DecUnit.start, if_neg hnotBusy, if_neg (startRejects_of_le hpos hle)]
  rfl

/-! After RESET every slot of the colour cache reads the zero pixel (R116). -/

@[simp] theorem EncUnit.read_resetUnit_lut (e : EncUnit) (k : BitVec 6) : Lut.read e.resetUnit.lut k = Config.zeroPixel :=
  Lut.read_clear k

@[simp] theorem DecUnit.read_resetUnit_lut (d : DecUnit) (k : BitVec 6) : Lut.read d.resetUnit.lut k = Config.zeroPixel :=
  Lut.read_clear k

/-- Settles O31: the command in CTRL, then START by its three cases for each unit; an accepted START is a reset that keeps the
configuration. -/
theorem startCommand : Obligations.StartCommand := by
  refine ⟨fun s v hnoReset hstart => ?command,
    fun m e => ⟨fun hbusy => EncUnit.start_of_busy hbusy m, EncUnit.start_of_rejected, fun hnotBusy hpos hle => ?enc⟩,
    fun m d => ⟨fun hbusy => DecUnit.start_of_busy hbusy m, DecUnit.start_of_rejected, fun hnotBusy hpos hle => ?dec⟩⟩
  case command =>
    obtain ⟨-, hwrite, -, -⟩ := ctrlWrite s v
    exact hwrite hnoReset hstart
  case enc =>
    rw [EncUnit.start_of_accepted hnotBusy hpos hle]
    exact ⟨rfl, EncUnit.read_resetUnit_lut e, rfl, rfl, rfl, rfl, rfl, rfl, rfl, rfl, rfl⟩
  case dec =>
    rw [DecUnit.start_of_accepted hnotBusy hpos hle]
    exact ⟨rfl, DecUnit.read_resetUnit_lut d, rfl, rfl, rfl, rfl, rfl, rfl, rfl, rfl, rfl⟩

/-- Settles O32: RESET in either bank is the reset of that unit and of no other, a hardware reset is both, and the reset of a unit has
the listed values. -/
theorem resetCommand : Obligations.ResetCommand := by
  intro s v hreset
  obtain ⟨hwrite, -, -, -⟩ := ctrlWrite s v
  obtain ⟨henc, hdec⟩ := hwrite hreset
  rw [henc, hdec]
  exact ⟨rfl, rfl, rfl, rfl, fun k => ⟨EncUnit.read_resetUnit_lut s.enc k, DecUnit.read_resetUnit_lut s.dec k⟩, rfl, rfl⟩

end Sys2Proof.Machine
end

section
/-! The codec of the chunks (30_encoding.md, R82 to R102): the bytes of DIFF and LUMA as numbers, and that `decode` and `encode` relate
exactly the well-formed chunks to their bytes. What is said of byte strings of any length, and of the opcode table, follows from that. -/

namespace Sys2Proof.Machine

/-! Fields inside a byte. -/

/-- Moving a field up by `k` bits is multiplying its number. -/
theorem ofNat_shiftLeft (w x k : Nat) : BitVec.ofNat w x <<< k = BitVec.ofNat w (x * 2 ^ k) := by
  rw [← BitVec.toNat_inj, BitVec.toNat_shiftLeft, BitVec.toNat_ofNat, BitVec.toNat_ofNat, Nat.shiftLeft_eq, Nat.mod_mul_mod]

/-- A field of `k` bits below others that leave its place empty. -/
theorem ofNat_or_field (w : Nat) {a k v : Nat} (ha : 2 ^ k ∣ a) (hv : v < 2 ^ k) :
    BitVec.ofNat w a ||| BitVec.ofNat w v = BitVec.ofNat w (a + v) := by
  obtain ⟨c, rfl⟩ := ha
  rw [← BitVec.ofNat_or, Nat.two_pow_add_eq_or_of_lt hv]

/-- The number of a field is what division and remainder cut out of the byte's number. -/
theorem extractLsb'_toNat_eq_div_mod (b : Byte) (start len : Nat) : (b.extractLsb' start len).toNat = b.toNat / 2 ^ start % 2 ^ len := by
  rw [BitVec.extractLsb'_toNat, Nat.shiftRight_eq_div_pow]

/-- The stored field of a value whose biased number is `x` (R88). -/
theorem biased_eq_ofNat {bias v : Int} {x : Nat} (hx : v + bias = x) : biased bias v = BitVec.ofNat 8 x := by
  rw [biased, hx, BitVec.ofInt_natCast]

/-! The operands of DIFF and LUMA, and their bytes, as numbers. -/

/-- R90: the three DIFF fields by division and remainder. -/
theorem decodeDiff_eq (b0 : Byte) :
    decodeDiff b0 = .diff ((b0.toNat / 16 % 4 : Nat) - 2) ((b0.toNat / 4 % 4 : Nat) - 2) ((b0.toNat % 4 : Nat) - 2) := by
  simp only [decodeDiff, extractLsb'_toNat_eq_div_mod, Nat.pow_zero, Nat.div_one, Nat.reducePow]
  rfl

/-- R91: the three LUMA fields by division and remainder. -/
theorem decodeLuma_eq (b0 b1 : Byte) :
    decodeLuma b0 b1 = .luma ((b0.toNat % 64 : Nat) - 32) ((b1.toNat / 16 : Nat) - 8) ((b1.toNat % 16 : Nat) - 8) := by
  have hhigh : b1.toNat / 2 ^ Config.lumaDrgBit % 16 = b1.toNat / 16 := Nat.mod_eq_of_lt (Nat.div_lt_of_lt_mul b1.isLt)
  simp only [decodeLuma, extractLsb'_toNat_eq_div_mod, Nat.pow_zero, Nat.div_one, Nat.reducePow, hhigh]

/-- R90: the byte of a DIFF chunk, its three fields given as numbers. -/
theorem encode_diff {dr dg db : Int} {x y z : Nat} (hx : dr + 2 = x) (hy : dg + 2 = y) (hz : db + 2 = z) (hx4 : x < 4) (hy4 : y < 4)
    (hz4 : z < 4) : encode (.diff dr dg db) = [BitVec.ofNat 8 (0x40 + x * 16 + y * 4 + z)] := by
  simp only [encode, Config.diffDrBit, Config.diffDgBit, Config.diffDbBit, biased_eq_ofNat hx, biased_eq_ofNat hy, biased_eq_ofNat hz,
    ofNat_shiftLeft, Nat.reducePow, Nat.mul_one]
  rw [tagByte_or_ofNat _ (by omega), ofNat_or_field (k := 4) 8 (by omega) (by omega), ofNat_or_field (k := 2) 8 (by omega) hz4]
  rfl

/-- R91: the two bytes of a LUMA chunk, its three fields given as numbers. -/
theorem encode_luma {dg drg dbg : Int} {x y z : Nat} (hx : dg + 32 = x) (hy : drg + 8 = y) (hz : dbg + 8 = z) (hx64 : x < 64)
    (hz16 : z < 16) : encode (.luma dg drg dbg) = [BitVec.ofNat 8 (0x80 + x), BitVec.ofNat 8 (y * 16 + z)] := by
  simp only [encode, Config.lumaDrgBit, Config.lumaDbgBit, biased_eq_ofNat hx, biased_eq_ofNat hy, biased_eq_ofNat hz,
    ofNat_shiftLeft, Nat.reducePow, Nat.mul_one]
  rw [tagByte_or_ofNat _ hx64, ofNat_or_field (k := 4) 8 (by omega) hz16]
  rfl

/-! Decoding an encoded chunk. -/

theorem decode_encode_index (k : BitVec 6) (rest : List Byte) : decode (encode (.index k) ++ rest) = .ok (.index k, rest) := by
  have hk : (BitVec.ofNat 8 k.toNat).toNat = k.toNat := by
    rw [BitVec.toNat_ofNat]
    omega
  rw [encode_index, List.singleton_append, decode_index (by omega), hk, BitVec.ofNat_toNat, BitVec.setWidth_eq]

theorem decode_encode_diff {dr dg db : Int} (h : (Instr.diff dr dg db).wellFormed = true) (rest : List Byte) :
    decode (encode (.diff dr dg db) ++ rest) = .ok (.diff dr dg db, rest) := by
  simp only [Instr.wellFormed, diffInRange, Bool.and_eq_true, decide_eq_true_eq] at h
  obtain ⟨x, hx⟩ := Int.eq_ofNat_of_zero_le (by omega : 0 ≤ dr + 2)
  obtain ⟨y, hy⟩ := Int.eq_ofNat_of_zero_le (by omega : 0 ≤ dg + 2)
  obtain ⟨z, hz⟩ := Int.eq_ofNat_of_zero_le (by omega : 0 ≤ db + 2)
  have hbyte : (BitVec.ofNat 8 (0x40 + x * 16 + y * 4 + z)).toNat = 0x40 + x * 16 + y * 4 + z := by
    rw [BitVec.toNat_ofNat]
    omega
  rw [encode_diff hx hy hz (by omega) (by omega) (by omega), List.singleton_append, decode_diff (by omega) (by omega), decodeDiff_eq, hbyte]
  congr 3 <;> omega

theorem decode_encode_luma {dg drg dbg : Int} (h : (Instr.luma dg drg dbg).wellFormed = true) (rest : List Byte) :
    decode (encode (.luma dg drg dbg) ++ rest) = .ok (.luma dg drg dbg, rest) := by
  simp only [Instr.wellFormed, lumaInRange, Bool.and_eq_true, decide_eq_true_eq] at h
  obtain ⟨x, hx⟩ := Int.eq_ofNat_of_zero_le (by omega : 0 ≤ dg + 32)
  obtain ⟨y, hy⟩ := Int.eq_ofNat_of_zero_le (by omega : 0 ≤ drg + 8)
  obtain ⟨z, hz⟩ := Int.eq_ofNat_of_zero_le (by omega : 0 ≤ dbg + 8)
  have hbyte0 : (BitVec.ofNat 8 (0x80 + x)).toNat = 0x80 + x := by
    rw [BitVec.toNat_ofNat]
    omega
  have hbyte1 : (BitVec.ofNat 8 (y * 16 + z)).toNat = y * 16 + z := by
    rw [BitVec.toNat_ofNat]
    omega
  rw [encode_luma hx hy hz (by omega) (by omega), List.cons_append, List.singleton_append, decode_luma (by omega) (by omega), decodeLuma_eq,
    hbyte0, hbyte1]
  congr 3 <;> omega

theorem decode_encode_run {n : Nat} (h : (Instr.run n).wellFormed = true) (rest : List Byte) :
    decode (encode (.run n) ++ rest) = .ok (.run n, rest) := by
  simp only [Instr.wellFormed, runInRange, Config.runMax, decide_eq_true_eq] at h
  have hbyte : (BitVec.ofNat 8 (0xC0 + (n - 1))).toNat = 0xC0 + (n - 1) := by
    rw [BitVec.toNat_ofNat]
    omega
  have hne : ∀ {b : Byte}, 0xFE ≤ b.toNat → BitVec.ofNat 8 (0xC0 + (n - 1)) ≠ b := by
    rintro b hb rfl
    omega
  have hsub : 0xC0 + (n - 1) - 0xBF = n := by omega
  rw [encode_run (by omega), List.singleton_append, decode_run (by omega) (hne (by decide)) (hne (by decide)), hbyte, hsub]

/-- Settles O1: chunk kind by chunk kind. -/
theorem decodeOfEncode : Obligations.DecodeOfEncode := by
  intro i rest h
  cases i with
  | rgb r g b => exact decode_rgb r g b rest
  | rgba r g b a => exact decode_rgba r g b a rest
  | index k => exact decode_encode_index k rest
  | diff dr dg db => exact decode_encode_diff h rest
  | luma dg drg dbg => exact decode_encode_luma h rest
  | run n => exact decode_encode_run h rest

/-! Encoding a decoded chunk. -/

/-- The bytes a first byte can be, in the order in which the decoder tests them (R86). -/
theorem firstByte_cases (b0 : Byte) :
    b0 = Config.tagRgb ∨ b0 = Config.tagRgba ∨ b0.toNat < 0x40 ∨ (0x40 ≤ b0.toNat ∧ b0.toNat < 0x80) ∨
      (0x80 ≤ b0.toNat ∧ b0.toNat < 0xC0) ∨ (0xC0 ≤ b0.toNat ∧ b0 ≠ Config.tagRgb ∧ b0 ≠ Config.tagRgba) := by
  by_cases hrgb : b0 = Config.tagRgb
  · exact .inl hrgb
  by_cases hrgba : b0 = Config.tagRgba
  · exact .inr (.inl hrgba)
  by_cases hrun : 0xC0 ≤ b0.toNat
  · exact .inr (.inr (.inr (.inr (.inr ⟨hrun, hrgb, hrgba⟩))))
  omega

theorem encode_decode_index {b0 : Byte} (h : b0.toNat < 0x40) : encode (.index (BitVec.ofNat 6 b0.toNat)) = [b0] := by
  rw [encode_index, BitVec.toNat_ofNat, Nat.mod_eq_of_lt h, BitVec.ofNat_toNat, BitVec.setWidth_eq]

theorem encode_decodeDiff {b0 : Byte} (hlo : 0x40 ≤ b0.toNat) (hhi : b0.toNat < 0x80) : encode (decodeDiff b0) = [b0] := by
  have hfield : ∀ v : Nat, (v : Int) - 2 + 2 = v := fun v => Int.sub_add_cancel v 2
  rw [decodeDiff_eq, encode_diff (hfield _) (hfield _) (hfield _) (by omega) (by omega) (by omega),
    List.singleton_inj, ← BitVec.toNat_inj, BitVec.toNat_ofNat]
  omega

theorem encode_decodeLuma {b0 : Byte} (hlo : 0x80 ≤ b0.toNat) (hhi : b0.toNat < 0xC0) (b1 : Byte) :
    encode (decodeLuma b0 b1) = [b0, b1] := by
  have hb1 := b1.isLt
  have hbyte0 : BitVec.ofNat 8 (0x80 + b0.toNat % 64) = b0 := by
    rw [← BitVec.toNat_inj, BitVec.toNat_ofNat]
    omega
  have hbyte1 : BitVec.ofNat 8 (b1.toNat / 16 * 16 + b1.toNat % 16) = b1 := by
    rw [← BitVec.toNat_inj, BitVec.toNat_ofNat]
    omega
  rw [decodeLuma_eq, encode_luma (Int.sub_add_cancel _ _) (Int.sub_add_cancel _ _) (Int.sub_add_cancel _ _) (by omega) (by omega),
    hbyte0, hbyte1]

theorem encode_decode_run {b0 : Byte} (hlo : 0xC0 ≤ b0.toNat) : encode (.run (b0.toNat - 0xBF)) = [b0] := by
  have hb0 := b0.isLt
  rw [encode_run (by omega), List.singleton_inj, ← BitVec.toNat_inj, BitVec.toNat_ofNat]
  omega

/-- A LUMA byte alone is cut short. -/
theorem decode_luma_short {b0 : Byte} (hlo : 0x80 ≤ b0.toNat) (hhi : b0.toNat < 0xC0) : decode [b0] = .error (.cutShort 2 1) := by
  obtain ⟨hrgb, hrgba⟩ := ne_tags_of_lt hhi
  have htag : tagBits b0 = Config.tagLuma := tagBits_eq_iff.mpr (by omega : b0.toNat / 64 = 2)
  simp only [decode, if_neg hrgb, if_neg hrgba, htag]
  rfl

/-- Settles O2: for each kind of first byte the chunk it selects. -/
theorem encodeOfDecode : Obligations.EncodeOfDecode := by
  intro bs rest i h
  obtain _ | ⟨b0, bs⟩ := bs
  · cases h
  obtain rfl | rfl | hindex | ⟨hlo, hhi⟩ | ⟨hlo, hhi⟩ | ⟨hlo, hrgb, hrgba⟩ := firstByte_cases b0
  · match bs, h with
    | r :: g :: b :: _, rfl => exact ⟨rfl, rfl⟩
  · match bs, h with
    | r :: g :: b :: a :: _, rfl => exact ⟨rfl, rfl⟩
  · cases (decode_index hindex bs).symm.trans h
    exact ⟨rfl, by rw [encode_decode_index hindex, List.singleton_append]⟩
  · cases (decode_diff hlo hhi bs).symm.trans h
    exact ⟨decodeDiff_wellFormed b0, by rw [encode_decodeDiff hlo hhi, List.singleton_append]⟩
  · obtain _ | ⟨b1, bs⟩ := bs
    · cases (decode_luma_short hlo hhi).symm.trans h
    cases (decode_luma hlo hhi b1 bs).symm.trans h
    exact ⟨decodeLuma_wellFormed b0 b1, by rw [encode_decodeLuma hlo hhi, List.cons_append, List.singleton_append]⟩
  · cases (decode_run hlo hrgb hrgba bs).symm.trans h
    have hmax := toNat_lt_of_ne_tags hrgb hrgba
    exact ⟨run_wellFormed (by omega) (by omega), by rw [encode_decode_run hlo, List.singleton_append]⟩

/-! Byte strings of any length, and the opcode table. -/

/-- The bytes of a chunk are as many as its kind says (R81). -/
theorem encode_length (i : Instr) : (encode i).length = i.length := by
  cases i <;> rfl

/-- The bytes of a well-formed chunk are as many as the first of them asks for (R87). -/
theorem encode_eq_cons {i : Instr} (h : i.wellFormed = true) : ∃ b0 bs, encode i = b0 :: bs ∧ chunkLen b0 = i.length := by
  have hhead : (encode i).head?.map chunkLen = some i.length := by
    cases i with
    | rgb r g b => exact (Sys2Proof.Laws.EncodeLength.rgb r g b).2 h
    | rgba r g b a => exact (Sys2Proof.Laws.EncodeLength.rgba r g b a).2 h
    | index k => exact (Sys2Proof.Laws.EncodeLength.index k).2 h
    | diff dr dg db => exact (Sys2Proof.Laws.EncodeLength.diff dr dg db).2 h
    | luma dg drg dbg => exact (Sys2Proof.Laws.EncodeLength.luma dg drg dbg).2 h
    | run n => exact (Sys2Proof.Laws.EncodeLength.run n).2 h
  cases hi : encode i with
  | nil => simp [hi] at hhead
  | cons b0 bs => exact ⟨b0, bs, rfl, by simpa [hi] using hhead⟩

/-- A decoded chunk took from the byte string as many bytes as the first byte asks for. -/
theorem length_of_decode {b0 : Byte} {bs rest : List Byte} {i : Instr} (h : decode (b0 :: bs) = .ok (i, rest)) :
    i.length = chunkLen b0 ∧ rest.length + chunkLen b0 = bs.length + 1 := by
  obtain ⟨hwf, hbytes⟩ := encodeOfDecode _ _ _ h
  obtain ⟨c0, cs, hi, hlen⟩ := encode_eq_cons hwf
  have htotal := congrArg List.length hbytes
  rw [List.length_append, encode_length, List.length_cons] at htotal
  rw [hi, List.cons_append, List.cons.injEq] at hbytes
  obtain ⟨rfl, -⟩ := hbytes
  omega

/-- Settles O3: the bytes of the chunk are one chunk alone, hence one before any other bytes; and a decoded chunk has its bytes. -/
theorem everyByteStringDecodes : Obligations.EveryByteStringDecodes := by
  intro b0 bs
  refine ⟨fun hfit => ?whole, fun hshort => ?cut⟩
  case whole =>
    have hpos := chunkLen_pos b0
    have htake : (bs.take (chunkLen b0 - 1)).length + 1 = chunkLen b0 := by
      rw [List.length_take]
      omega
    obtain ⟨i, hwf, -, hdec⟩ := exists_decode_of_length htake
    obtain ⟨-, hbytes⟩ := encodeOfDecode _ _ _ hdec
    have hall : encode i ++ bs.drop (chunkLen b0 - 1) = b0 :: bs := by
      rw [List.append_nil] at hbytes
      rw [hbytes, List.cons_append, List.take_append_drop]
    have hok := decodeOfEncode i (bs.drop (chunkLen b0 - 1)) hwf
    rw [hall] at hok
    exact ⟨i, _, hok, length_of_decode hok⟩
  case cut =>
    cases hdec : decode (b0 :: bs) with
    | error e => exact ⟨e, rfl⟩
    | ok chunk =>
      obtain ⟨-, hlen⟩ := length_of_decode hdec
      omega

/-- The mask of the four rows that are selected by a tag keeps the tag alone (R102). -/
theorem and_tagMask_eq : ∀ b0 : Byte, b0 &&& 0xC0 = tagByte (tagBits b0) := by
  decide

/-- Past the full-byte tags the tag alone selects the row (R102). -/
theorem rowOf_of_ne_tags {b0 : Byte} {t : BitVec 2} (hrgb : b0 ≠ Config.tagRgb) (hrgba : b0 ≠ Config.tagRgba)
    (htag : b0.toNat / 64 = t.toNat) : rowOf b0 = opcodeRows[t.toNat + 2]? := by
  have hfull : b0 &&& 0xFF = b0 := BitVec.and_allOnes
  have h0 : (b0 == 0xFE) = false := beq_eq_false_iff_ne.mpr hrgb
  have h1 : (b0 == 0xFF) = false := beq_eq_false_iff_ne.mpr hrgba
  simp only [rowOf, opcodeRows, List.find?_cons, List.find?_nil, hfull, h0, h1, and_tagMask_eq, tagBits_eq_iff.mpr htag]
  clear htag
  revert t
  decide

/-- Settles O4: a first byte of each kind, with the row it selects and the chunk it begins. -/
theorem opcodeTableAgreesWithDecoder : Obligations.OpcodeTableAgreesWithDecoder := by
  intro b0
  obtain rfl | rfl | hindex | ⟨hlo, hhi⟩ | ⟨hlo, hhi⟩ | ⟨hlo, hrgb, hrgba⟩ := firstByte_cases b0
  case inl =>
    refine ⟨⟨"RGB", 0xFE, 0xFF, 4⟩, by decide, rfl, fun rest i rest' hdec => ?_⟩
    match rest, hdec with
    | r :: g :: b :: _, rfl => rfl
  case inr.inl =>
    refine ⟨⟨"RGBA", 0xFF, 0xFF, 5⟩, by decide, rfl, fun rest i rest' hdec => ?_⟩
    match rest, hdec with
    | r :: g :: b :: a :: _, rfl => rfl
  case inr.inr.inl =>
    obtain ⟨hrgb, hrgba⟩ := ne_tags_of_lt (b0 := b0) (by omega)
    refine ⟨⟨"INDEX", 0x00, 0xC0, 1⟩, rowOf_of_ne_tags (t := 0) hrgb hrgba (Nat.div_eq_of_lt hindex), ?_,
      fun rest i rest' hdec => ?_⟩
    · rw [chunkLen_of_ne_tags hrgb hrgba, if_neg (by omega)]
    · cases (decode_index hindex rest).symm.trans hdec
      rfl
  case inr.inr.inr.inl =>
    obtain ⟨hrgb, hrgba⟩ := ne_tags_of_lt (b0 := b0) (by omega)
    refine ⟨⟨"DIFF", 0x40, 0xC0, 1⟩, rowOf_of_ne_tags (t := 1) hrgb hrgba (by omega : b0.toNat / 64 = 1), ?_,
      fun rest i rest' hdec => ?_⟩
    · rw [chunkLen_of_ne_tags hrgb hrgba, if_neg (by omega)]
    · cases (decode_diff hlo hhi rest).symm.trans hdec
      rfl
  case inr.inr.inr.inr.inl =>
    obtain ⟨hrgb, hrgba⟩ := ne_tags_of_lt hhi
    refine ⟨⟨"LUMA", 0x80, 0xC0, 2⟩, rowOf_of_ne_tags (t := 2) hrgb hrgba (by omega : b0.toNat / 64 = 2), ?_,
      fun rest i rest' hdec => ?_⟩
    · rw [chunkLen_of_ne_tags hrgb hrgba, if_pos (by omega)]
    · obtain _ | ⟨b1, rest⟩ := rest
      · cases (decode_luma_short hlo hhi).symm.trans hdec
      · cases (decode_luma hlo hhi b1 rest).symm.trans hdec
        rfl
  case inr.inr.inr.inr.inr =>
    have hb0 := b0.isLt
    refine ⟨⟨"RUN", 0xC0, 0xC0, 1⟩, rowOf_of_ne_tags (t := 3) hrgb hrgba (by omega : b0.toNat / 64 = 3), ?_,
      fun rest i rest' hdec => ?_⟩
    · rw [chunkLen_of_ne_tags hrgb hrgba, if_neg (by omega)]
    · cases (decode_run hlo hrgb hrgba rest).symm.trans hdec
      rfl

/-- Settles O5: the words are closed, and the decoder computes. -/
theorem writtenOutWordsDecode : Obligations.WrittenOutWordsDecode := by
  unfold Obligations.WrittenOutWordsDecode
  decide

end Sys2Proof.Machine
end

section
/-! The ENC step as a whole (42_encoder.md, R141 to R157). The selection for a pixel that is no run is always a well-formed chunk, so the
step has three outcomes, said once in `process_cases`; the branches with channel differences, and what the step cannot do, follow. -/

namespace Sys2Proof.Machine

/-! The selection (R142). -/

/-- Among DIFF, LUMA and RGB the selection hands no packer an operand outside its range (R154). -/
theorem selectDelta_chunk (prev px : Pixel) : ∃ i, (selectDelta prev px).chunk? px = some i ∧ i.wellFormed = true := by
  unfold selectDelta
  dsimp only
  split_ifs with hdiff hluma
  · exact ⟨_, rfl, hdiff⟩
  · exact ⟨_, rfl, hluma⟩
  · exact ⟨_, rfl, rfl⟩

/-- A pixel that differs from `prev` has a chunk of its own, a well-formed one. -/
theorem select_chunk_of_ne {prev px : Pixel} (hne : px ≠ prev) (lut : Lut) :
    ∃ i, (select prev lut px).chunk? px = some i ∧ i.wellFormed = true := by
  by_cases hhit : Lut.read lut (hash px) = px
  · exact ⟨_, by rw [select_of_hit hne hhit]; rfl, rfl⟩
  · rw [select_of_miss hne hhit]
    split_ifs
    · exact selectDelta_chunk prev px
    · exact ⟨_, rfl, rfl⟩

/-- A pixel equal to `prev` has no chunk of its own (R143). -/
theorem select_chunk_of_eq {prev px : Pixel} (h : px = prev) (lut : Lut) : (select prev lut px).chunk? px = none := by
  rw [select_of_eq_prev h]
  rfl

/-- Settles O28: a selection with a chunk is for a pixel that is no run. -/
theorem selectionStaysInRange : Obligations.SelectionStaysInRange := by
  intro prev px lut i h
  have hne : px ≠ prev := fun heq => by simp [select_chunk_of_eq heq] at h
  obtain ⟨i', hi', hwf⟩ := select_chunk_of_ne hne lut
  obtain rfl : i' = i := Option.some.inj (hi'.symm.trans h)
  exact ⟨hwf, if_pos hwf⟩

/-- INDEX is selected on a hit only, and names the pixel's slot (R147). -/
theorem select_index_inversion {prev px : Pixel} {lut : Lut} {k : BitVec 6} (h : select prev lut px = .index k) :
    k = hash px ∧ Lut.read lut (hash px) = px := by
  unfold select selectDelta at h
  dsimp only at h
  split_ifs at h with _ hhit
  cases h
  exact ⟨rfl, (Lut.hit_iff lut px).mp hhit⟩

/-! The step by its selection. -/

/-- LUT.WRITE of a pixel that is found in its slot changes nothing: INDEX too ends with the pixel in its slot (R146). -/
theorem Lut.write_of_hit {lut : Lut} {px : Pixel} (h : Lut.read lut (hash px) = px) : Lut.write lut px = lut := by
  refine Lut.ext_read fun k => ?_
  rw [Lut.read_write]
  split_ifs with hk
  · rw [hk, h]
  · rfl

/-- Every branch with a chunk of its own: the pending run, the chunk, and the pixel in its slot (R145, R146). -/
theorem process_of_chunk {e : EncUnit} {px : Pixel} {i : Instr} (hrun : e.run.toNat ≤ 61)
    (hi : (select e.prev e.lut px).chunk? px = some i) (last : Bool) :
    e.process px last = some (e.produced (e.pendingRunBytes ++ encode i) 0 (Lut.write e.lut px)) := by
  obtain ⟨hwf, -⟩ := selectionStaysInRange e.prev px e.lut i hi
  unfold EncUnit.process
  split <;> rename_i hsel <;> rw [hsel] at hi <;> cases hi
  case h_2 k =>
    obtain ⟨-, hhit⟩ := select_index_inversion hsel
    rw [Lut.write_of_hit hhit]
    exact breakRun_bind_emit hrun hwf
  all_goals exact breakRun_bind_lutWrite_emit hrun px hwf

/-- What the branches of a step can do, for a run counter as it is between steps: a run is flushed or counted, and any other pixel has a
chunk of its own. -/
theorem process_cases {e : EncUnit} (hrun : e.run.toNat ≤ 61) (px : Pixel) (last : Bool) :
    (px = e.prev ∧ (e.run.toNat + 1 = 62 ∨ last = true) ∧
      e.process px last = some (e.produced (encode (.run (e.run.toNat + 1))) 0 e.lut)) ∨
    (px = e.prev ∧ e.run.toNat + 1 ≠ 62 ∧ last = false ∧ e.process px last = some (e.produced [] (e.run + 1) e.lut)) ∨
    (px ≠ e.prev ∧ ∃ i, (select e.prev e.lut px).chunk? px = some i ∧ i.wellFormed = true ∧
      e.process px last = some (e.produced (e.pendingRunBytes ++ encode i) 0 (Lut.write e.lut px))) := by
  by_cases hprev : px = e.prev
  · rw [process_of_eq_prev hprev, encode_run (by omega), Nat.add_sub_cancel]
    by_cases hflush : e.run.toNat + 1 = 62 ∨ last = true
    · exact .inl ⟨hprev, hflush, absorb_flush hrun hflush⟩
    · obtain ⟨hmax, hlast⟩ := not_or.mp hflush
      rw [Bool.not_eq_true] at hlast
      exact .inr (.inl ⟨hprev, hmax, hlast, absorb_count hrun hmax hlast⟩)
  · obtain ⟨i, hi, hwf⟩ := select_chunk_of_ne hprev e.lut
    exact .inr (.inr ⟨hprev, i, hi, hwf, process_of_chunk hrun hi last⟩)

/-- No branch refuses (R154). -/
theorem exists_process_eq {e : EncUnit} (hrun : e.run.toNat ≤ 61) (px : Pixel) (last : Bool) :
    ∃ bytes run lut, e.process px last = some (e.produced bytes run lut) := by
  obtain ⟨-, -, h⟩ | ⟨-, -, -, h⟩ | ⟨-, i, -, -, h⟩ := process_cases hrun px last <;> exact ⟨_, _, _, h⟩

/-- Settles O29: no branch refuses, and the common end leaves the unit BUSY or in DONE. -/
theorem encStepNeverFaults : Obligations.EncStepNeverFaults := by
  intro s hbusy hinv
  obtain ⟨bytes, run, lut, hp⟩ := exists_process_eq hinv.run_le (s.enc.pixRead s.enc.i) (decide (s.enc.i + 1 = s.enc.npix.toNat))
  obtain ⟨t, hturn, hadv, -⟩ := encTurn_of_process ⟨hbusy, hinv.run_le, rfl⟩ hp
  refine ⟨t, hturn, ?_, hadv.fault_frame⟩
  by_cases hlast : s.enc.i + 1 = s.enc.npix.toNat
  · exact .inr (hadv.done hlast)
  · exact .inl ((hadv.status_frame hlast).trans hbusy)

/-! The branches with channel differences (R148 to R151). -/

/-- A difference modulo 256 in the signed range is `sub8` (R148). -/
theorem sub8_eq {x p : Byte} {d : Int} (h : (d - (x.toNat - p.toNat)) % 256 = 0 ∧ -128 ≤ d ∧ d ≤ 127) : sub8 x p = d := by
  have hs := s8_spec (x.toNat - p.toNat)
  unfold sub8
  omega

/-- After an index miss with unchanged alpha the three differences decide. -/
theorem select_of_encDelta {s : State} {px : Pixel} {dr dg db : Int} (h : s.EncDelta px dr dg db) :
    select s.enc.prev s.enc.lut px =
      if fitsDiff dr dg db then .diff dr dg db else if fitsLuma dr dg db then .luma dg (dr - dg) (db - dg) else .rgb := by
  rw [select_of_miss h.not_run h.miss, if_pos h.alpha, selectDelta, sub8_eq h.dr_eq, sub8_eq h.dg_eq, sub8_eq h.db_eq]

theorem fitsDiff_iff {dr dg db : Int} :
    fitsDiff dr dg db = true ↔ (-2 ≤ dr ∧ dr ≤ 1) ∧ (-2 ≤ dg ∧ dg ≤ 1) ∧ (-2 ≤ db ∧ db ≤ 1) := by
  simp [fitsDiff, and_assoc]

theorem fitsLuma_iff {dr dg db : Int} :
    fitsLuma dr dg db = true ↔
      (-32 ≤ dg ∧ dg ≤ 31) ∧ (-8 ≤ dr - dg ∧ dr - dg ≤ 7) ∧ (-8 ≤ db - dg ∧ db - dg ≤ 7) := by
  simp [fitsLuma, and_assoc]

/-- A turn of ENC for a pixel with a chunk of its own: its bytes after the pending run, and LUT.WRITE. -/
theorem encTurn_of_chunk {s : State} {px : Pixel} {i : Instr} (hs : s.EncReady px)
    (hi : (select s.enc.prev s.enc.lut px).chunk? px = some i) :
    ∃ t, encTurn s = .next t ∧ EncAdvances s t px (s.enc.pendingRunBytes ++ encode i) 0 ∧ EncLutWritten s t px := by
  obtain ⟨t, hturn, hadv, hlut⟩ := encTurn_of_process hs (process_of_chunk hs.run_le hi _)
  exact ⟨t, hturn, hadv, encLutWritten_of_lut_eq hlut⟩

/-- Settles O24: the differences select DIFF, whose byte has the three fields. -/
theorem encDiffBranch : Obligations.EncDiffBranch := by
  intro s px dr dg db h hr hg hb
  obtain ⟨x, hx⟩ := Int.eq_ofNat_of_zero_le (by omega : 0 ≤ dr + 2)
  obtain ⟨y, hy⟩ := Int.eq_ofNat_of_zero_le (by omega : 0 ≤ dg + 2)
  obtain ⟨z, hz⟩ := Int.eq_ofNat_of_zero_le (by omega : 0 ≤ db + 2)
  have hbyte : BitVec.ofInt 8 (0x40 + (dr + 2) * 16 + (dg + 2) * 4 + (db + 2)) = BitVec.ofNat 8 (0x40 + x * 16 + y * 4 + z) := by
    rw [hx, hy, hz, ← BitVec.ofInt_natCast]
    rfl
  rw [hbyte, ← encode_diff hx hy hz (by omega) (by omega) (by omega)]
  refine encTurn_of_chunk h.ready ?_
  rw [select_of_encDelta h, if_pos (fitsDiff_iff.mpr ⟨hr, hg, hb⟩)]
  rfl

/-- Settles O25: the differences select LUMA, whose bytes have the three fields. -/
theorem encLumaBranch : Obligations.EncLumaBranch := by
  intro s px dr dg db h hdiff hg hrg hbg
  obtain ⟨x, hx⟩ := Int.eq_ofNat_of_zero_le (by omega : 0 ≤ dg + 32)
  obtain ⟨y, hy⟩ := Int.eq_ofNat_of_zero_le (by omega : 0 ≤ dr - dg + 8)
  obtain ⟨z, hz⟩ := Int.eq_ofNat_of_zero_le (by omega : 0 ≤ db - dg + 8)
  have hbyte0 : BitVec.ofInt 8 (0x80 + (dg + 32)) = BitVec.ofNat 8 (0x80 + x) := by
    rw [hx, ← BitVec.ofInt_natCast]
    rfl
  have hbyte1 : BitVec.ofInt 8 ((dr - dg + 8) * 16 + (db - dg + 8)) = BitVec.ofNat 8 (y * 16 + z) := by
    rw [hy, hz, ← BitVec.ofInt_natCast]
    rfl
  rw [hbyte0, hbyte1, ← encode_luma hx hy hz (by omega) (by omega)]
  refine encTurn_of_chunk h.ready ?_
  rw [select_of_encDelta h, if_neg (mt fitsDiff_iff.mp hdiff), if_pos (fitsLuma_iff.mpr ⟨hg, hrg, hbg⟩)]
  rfl

/-- Settles O26: the differences fit neither DIFF nor LUMA, and RGB is left. -/
theorem encRgbBranch : Obligations.EncRgbBranch := by
  intro s px dr dg db h hdiff hluma
  refine encTurn_of_chunk (i := .rgb px.r px.g px.b) h.ready ?_
  rw [select_of_encDelta h, if_neg (mt fitsDiff_iff.mp hdiff), if_neg (mt fitsLuma_iff.mp hluma)]
  rfl

/-! The step reads one pixel (R60): with another PIX every operation of a step does the same to the other fields. -/

/-- ENC with another input buffer. -/
def EncUnit.withPix (e : EncUnit) (m : Mem Word) : EncUnit := { e with pix := m }

theorem emit_withPix (e : EncUnit) (m : Mem Word) (i : Instr) : (e.withPix m).emit i = (e.emit i).map fun e' => e'.withPix m := by
  cases hwf : i.wellFormed with
  | true =>
    rw [emit_of_wellFormed hwf, emit_of_wellFormed hwf, appendBytes_eq, appendBytes_eq]
    rfl
  | false =>
    rw [emit_of_not_wellFormed hwf, emit_of_not_wellFormed hwf]
    rfl

theorem flushRun_withPix (e : EncUnit) (m : Mem Word) : (e.withPix m).flushRun = e.flushRun.map fun e' => e'.withPix m := by
  unfold EncUnit.flushRun
  rw [emit_withPix, Option.map_map, Option.map_map]
  rfl

theorem absorb_withPix (e : EncUnit) (m : Mem Word) (last : Bool) :
    (e.withPix m).absorb last = (e.absorb last).map fun e' => e'.withPix m := by
  unfold EncUnit.absorb
  dsimp only [EncUnit.withPix]
  split_ifs
  · exact flushRun_withPix { e with run := e.run + 1 } m
  · rfl

theorem breakRun_withPix (e : EncUnit) (m : Mem Word) : (e.withPix m).breakRun = e.breakRun.map fun e' => e'.withPix m := by
  by_cases h : e.run = 0
  · rw [EncUnit.breakRun, if_pos (show (e.withPix m).run = 0 from h), EncUnit.breakRun, if_pos h]
    rfl
  · rw [EncUnit.breakRun, if_neg (show ¬(e.withPix m).run = 0 from h), EncUnit.breakRun, if_neg h, flushRun_withPix]

/-- What follows the broken run is the same too, when each emission is. -/
theorem breakRun_bind_withPix (e : EncUnit) (m : Mem Word) {f : EncUnit → Option EncUnit}
    (hf : ∀ e', f (e'.withPix m) = (f e').map fun e'' => e''.withPix m) :
    (e.withPix m).breakRun.bind f = (e.breakRun.bind f).map fun e' => e'.withPix m := by
  rw [breakRun_withPix]
  cases e.breakRun with
  | none => rfl
  | some e' => exact hf e'

theorem process_withPix (e : EncUnit) (m : Mem Word) (px : Pixel) (last : Bool) :
    (e.withPix m).process px last = (e.process px last).map fun e' => e'.withPix m := by
  have hselect : select (e.withPix m).prev (e.withPix m).lut px = select e.prev e.lut px := rfl
  unfold EncUnit.process
  rw [hselect]
  cases select e.prev e.lut px with
  | run => exact absorb_withPix e m last
  | index k => exact breakRun_bind_withPix e m fun e' => emit_withPix e' m _
  | diff | luma | rgb | rgba => exact breakRun_bind_withPix e m fun e' => emit_withPix (e'.lutWrite px) m _

/-- A step that a packer refuses. -/
theorem step_of_refused {e : EncUnit} (h : e.process (e.pixRead e.i) (decide (e.i + 1 = e.npix.toNat)) = none) :
    e.step = e.raise .invalidDelta e.i := by
  simp only [EncUnit.step, h]

/-- A step does not see the cells of PIX other than the one at `i`. -/
theorem step_withPix {e : EncUnit} {m : Mem Word} (h : Memory.read? m e.i = Memory.read? e.pix e.i) :
    (e.withPix m).step = e.step.withPix m := by
  have hpx : (e.withPix m).pixRead e.i = e.pixRead e.i := by
    unfold EncUnit.pixRead
    rw [← h]
    rfl
  have hprocess := process_withPix e m (e.pixRead e.i) (decide (e.i + 1 = e.npix.toNat))
  rw [← hpx] at hprocess
  cases hp : e.process (e.pixRead e.i) (decide (e.i + 1 = e.npix.toNat)) with
  | none =>
    rw [hpx, hp, ← hpx] at hprocess
    rw [step_of_refused hp, step_of_refused hprocess]
    rfl
  | some e' =>
    rw [hpx, hp, ← hpx] at hprocess
    rw [step_of_process hp, step_of_process hprocess, ← hpx]
    rfl

/-- Settles O30: a turn is a step, or nothing. -/
theorem encReadsOnlyItsPixel : Obligations.EncReadsOnlyItsPixel := by
  intro s m h
  by_cases hbusy : s.enc.status = .busy
  · refine ⟨_, encTurn_busy hbusy, (encTurn_busy (s := { s with enc := s.enc.withPix m }) hbusy).trans ?_⟩
    exact congrArg (fun e => Host.Outcome.next { s with enc := e }) (step_withPix h)
  · exact ⟨s, encTurn_not_busy hbusy, encTurn_not_busy hbusy⟩

end Sys2Proof.Machine
end

section
/-! The DEC step (43_decoder.md, R171 to R188): the chunks that carry raw channels or differences, fault entry, and which input bytes a
turn depends on. -/

namespace Sys2Proof.Machine

/-! RGB, DIFF and LUMA. -/

/-- Settles O10: the tag fixes the length 4, and the three bytes after it are the operands. -/
theorem rgbChunk : Obligations.RgbChunk := by
  have hlen : ∀ {s : State}, s.dec.strRead s.dec.ip = Config.tagRgb → chunkLen (s.dec.strRead s.dec.ip) = 4 := fun h => by rw [h]; rfl
  refine ⟨fun r g b s => decProduce_produces (fun d => rgbPixel d.prev r g b) 1 4 s, fun s hbusy htag hfit => ?_,
    fun s hbusy htag hshort => decTurn_of_short hbusy (hlen htag) hshort⟩
  refine decTurn_of_decode hbusy (hlen htag) hfit (rest := []) ?_
  rw [← decode_rgb, ← htag]
  rfl

/-- Channel addition is addition modulo 256 (R11). -/
theorem add8_toNat (a : Byte) (d : Int) : ((add8 a d).toNat : Int) = (a.toNat + d) % 256 := by
  rw [add8, BitVec.toNat_ofInt]
  omega

/-- Settles O15: `prev` is the same after the pre-write, and the fields of the byte are those of `decodeDiff`. -/
theorem diffChunk : Obligations.DiffChunk := by
  refine ⟨fun dr dg db s => ?_, fun s b0 hbusy hin hb0 hlo hhi => ?_⟩
  · obtain ⟨t, hexec, hprod⟩ := decProduce_produces (fun d => diffPixel d.prev dr dg db) 1 1 s
    exact ⟨t, _, hexec, hprod, add8_toNat _ dr, add8_toNat _ dg, add8_toNat _ db, rfl⟩
  · subst hb0
    obtain ⟨hrgb, hrgba⟩ := ne_tags_of_lt (b0 := s.dec.strRead s.dec.ip) (by omega)
    have hlen : chunkLen (s.dec.strRead s.dec.ip) = 1 := by rw [chunkLen_of_ne_tags hrgb hrgba, if_neg (by omega)]
    rw [← decodeDiff_eq]
    exact decTurn_of_decode hbusy hlen hin (decode_diff hlo hhi [])

/-- A first byte of LUMA asks for two bytes (R87). -/
theorem chunkLen_luma {b0 : Byte} (hlo : 0x80 ≤ b0.toNat) (hhi : b0.toNat < 0xC0) : chunkLen b0 = 2 := by
  obtain ⟨hrgb, hrgba⟩ := ne_tags_of_lt hhi
  rw [chunkLen_of_ne_tags hrgb hrgba, if_pos (by omega)]

/-- Settles O16: as DIFF, with the fields of two bytes. -/
theorem lumaChunk : Obligations.LumaChunk := by
  refine ⟨fun dg drg dbg s => ?_, fun s b0 b1 hbusy hfit hb0 hb1 hlo hhi => ?_, fun s b0 hbusy hb0 hlo hhi hshort => ?_⟩
  · obtain ⟨t, hexec, hprod⟩ := decProduce_produces (fun d => lumaPixel d.prev dg drg dbg) 1 2 s
    exact ⟨t, _, hexec, hprod, add8_toNat _ (dg + drg), add8_toNat _ dg, add8_toNat _ (dg + dbg), rfl⟩
  · subst hb0 hb1
    rw [← decodeLuma_eq]
    exact decTurn_of_decode hbusy (chunkLen_luma hlo hhi) hfit (decode_luma hlo hhi _ [])
  · subst hb0
    exact decTurn_of_short hbusy (chunkLen_luma hlo hhi) hshort

/-! What a turn of a BUSY DEC can do. -/

/-- A chunk that is fetched is well formed, and its bytes lie below ILEN. -/
theorem fetch_some_wellFormed {d : DecUnit} {i : Instr} (h : d.fetch = some i) :
    i.wellFormed = true ∧ d.ip + i.length ≤ d.ilen.toNat := by
  obtain ⟨hfit, rest, hdec⟩ := fetch_some h
  obtain ⟨i', hwf, hlen, hdec'⟩ := exists_decode_strBytes d d.ip
  cases hdec.symm.trans hdec'
  exact ⟨hwf, hlen ▸ hfit⟩

/-- A well-formed RUN has a pixel (R92). -/
theorem run_pos_of_wellFormed {n : Nat} (h : (Instr.run n).wellFormed = true) : 1 ≤ n := by
  simp only [Instr.wellFormed, runInRange, decide_eq_true_eq] at h
  exact h.1

/-- The unit in an answer of DEC's, `d` where the machine stops. -/
def decOfAnswer (d : DecUnit) : Answer → DecUnit
  | .next t => t.dec
  | .fault _ => d
  | .refused _ => d

/-- DEC as `exec` leaves it, whatever the rest of the machine is. -/
def DecUnit.afterChunk (d : DecUnit) (i : Instr) : DecUnit := decOfAnswer d (exec i { State.reset with dec := d })

/-- DEC as a turn of its own leaves it, whatever the rest of the machine is. -/
def DecUnit.turn (d : DecUnit) : DecUnit := decOfAnswer d (decTurn { State.reset with dec := d })

/-- RUN by its test on the output (R178, R179). -/
theorem afterChunk_run (d : DecUnit) (n : Nat) :
    d.afterChunk (.run n) = if d.npix.toNat < d.op + n then d.raise .shapeMismatch d.ip else d.preWrite.finish d.prev n 1 := by
  split_ifs with h
  · rw [DecUnit.afterChunk, exec_run_of_overrun h]
    rfl
  · rw [DecUnit.afterChunk, exec_run_of_fits (Nat.le_of_not_lt h)]
    rfl

/-- `exec` reads and writes nothing but DEC. -/
theorem exec_eq (i : Instr) (s : State) : exec i s = .next { s with dec := s.dec.afterChunk i } := by
  cases i with
  | run n =>
    rw [afterChunk_run]
    split_ifs with h
    · exact exec_run_of_overrun h
    · exact exec_run_of_fits (Nat.le_of_not_lt h)
  | _ => rfl

theorem DecUnit.turn_of_not_busy {d : DecUnit} (h : d.status ≠ .busy) : d.turn = d := by
  rw [DecUnit.turn, decTurn_not_busy h]
  rfl

theorem DecUnit.turn_of_fetch_none {d : DecUnit} (h : d.status = .busy) (hf : d.fetch = none) : d.turn = d.raise .truncatedStream d.ip := by
  rw [DecUnit.turn, decTurn_none h hf]
  rfl

theorem DecUnit.turn_of_fetch_some {d : DecUnit} {i : Instr} (h : d.status = .busy) (hf : d.fetch = some i) : d.turn = d.afterChunk i := by
  rw [DecUnit.turn, decTurn_some h hf]
  rfl

/-- A turn of DEC reads and writes nothing but DEC (R219). -/
theorem decTurn_eq (s : State) : decTurn s = .next { s with dec := s.dec.turn } := by
  by_cases h : s.dec.status = .busy
  · cases hf : s.dec.fetch with
    | none =>
      rw [decTurn_none h hf, DecUnit.turn_of_fetch_none h hf]
      rfl
    | some i => rw [decTurn_some h hf, DecUnit.turn_of_fetch_some h hf, exec_eq]
  · rw [decTurn_not_busy h, DecUnit.turn_of_not_busy h]

/-- What a turn of a BUSY DEC can do: raise one of two failures, or complete a chunk that lies below ILEN, of one pixel or of as many as
there is room for. -/
theorem DecUnit.turn_cases {d : DecUnit} (h : d.status = .busy) :
    (∃ code, (code = .truncatedStream ∨ code = .shapeMismatch) ∧ d.turn = d.raise code d.ip) ∨
    ∃ px cnt len, 1 ≤ cnt ∧ (cnt = 1 ∨ d.op + cnt ≤ d.npix.toNat) ∧ d.ip + len ≤ d.ilen.toNat ∧
      d.turn = d.preWrite.finish px cnt len := by
  cases hf : d.fetch with
  | none => exact .inl ⟨_, .inl rfl, DecUnit.turn_of_fetch_none h hf⟩
  | some i =>
    rw [DecUnit.turn_of_fetch_some h hf]
    obtain ⟨hwf, hfit⟩ := fetch_some_wellFormed hf
    cases i with
    | run n =>
      rw [afterChunk_run]
      split_ifs with hover
      · exact .inl ⟨_, .inr rfl, rfl⟩
      · exact .inr ⟨_, n, 1, run_pos_of_wellFormed hwf, .inr (Nat.le_of_not_lt hover), hfit, rfl⟩
    | _ => exact .inr ⟨_, 1, _, Nat.le_refl 1, .inl rfl, hfit, rfl⟩

/-- `completion` never raises. -/
theorem completion_ne_fault {st : Status} (h : st ≠ .fault) (cursor n : Nat) : completion cursor n st ≠ .fault := by
  unfold completion
  split_ifs
  · simp
  · exact h

/-- Settles O19: a completed chunk leaves the unit BUSY or in DONE. -/
theorem faultEntryDiscardsTheStep : Obligations.FaultEntryDiscardsTheStep := by
  intro s t hbusy hturn hfault
  rw [decTurn_eq] at hturn
  cases hturn
  obtain ⟨code, rfl | rfl, hraise⟩ | ⟨px, cnt, len, -, -, -, hfinish⟩ := DecUnit.turn_cases hbusy
  · rw [hraise]
    exact .inl rfl
  · rw [hraise]
    exact .inr rfl
  · rw [hfinish] at hfault
    exact absurd hfault (completion_ne_fault (by simp [hbusy]) _ _)

/-- Settles O21: such a unit's turn is no step. -/
theorem noStepUnlessBusy : Obligations.NoStepUnlessBusy := fun _ => ⟨decTurn_not_busy, encTurn_not_busy⟩

/-! The input bytes a turn reads (R185): with other bytes outside the chunk every part of a turn is the same. -/

/-- DEC with another input buffer. -/
def DecUnit.withStr (d : DecUnit) (m : Mem Byte) : DecUnit := { d with str := m }

theorem afterChunk_withStr (d : DecUnit) (m : Mem Byte) (i : Instr) : (d.withStr m).afterChunk i = (d.afterChunk i).withStr m := by
  cases i with
  | run n =>
    by_cases h : d.npix.toNat < d.op + n
    · rw [afterChunk_run, if_pos (show (d.withStr m).npix.toNat < (d.withStr m).op + n from h), afterChunk_run, if_pos h]
      rfl
    · rw [afterChunk_run, if_neg (show ¬(d.withStr m).npix.toNat < (d.withStr m).op + n from h), afterChunk_run, if_neg h]
      rfl
  | _ => rfl

/-- Bytes read at the same offsets of two inputs that agree there. -/
theorem strBytes_withStr {d : DecUnit} {m : Mem Byte} {a n : Nat}
    (h : ∀ x, a ≤ x → x < a + n → Memory.read? m x = Memory.read? d.str x) : (d.withStr m).strBytes a n = d.strBytes a n := by
  induction n generalizing a with
  | zero => rfl
  | succ n ih =>
    have hhead : (d.withStr m).strRead a = d.strRead a := by
      unfold DecUnit.strRead
      rw [← h a (Nat.le_refl a) (by omega)]
      rfl
    rw [DecUnit.strBytes, DecUnit.strBytes, hhead, ih fun x hx hx' => h x (by omega) (by omega)]

/-- R184, R185: the fetch reads the bytes of the chunk below ILEN and no other. -/
theorem fetch_withStr {d : DecUnit} {m : Mem Byte}
    (h : ∀ a, d.ip ≤ a → a < d.ip + chunkLen (d.strRead d.ip) → a < d.ilen.toNat → Memory.read? m a = Memory.read? d.str a) :
    (d.withStr m).fetch = d.fetch := by
  by_cases hend : d.ilen.toNat ≤ d.ip
  · rw [fetch_none_of_end hend, fetch_none_of_end (show (d.withStr m).ilen.toNat ≤ (d.withStr m).ip from hend)]
  have hpos := chunkLen_pos (d.strRead d.ip)
  have hfirst : (d.withStr m).strBytes d.ip 1 = d.strBytes d.ip 1 :=
    strBytes_withStr fun x hx hx' => h x hx (by omega) (by omega)
  have hread : (d.withStr m).strRead d.ip = d.strRead d.ip := (List.cons.inj hfirst).1
  by_cases hshort : d.ilen.toNat < d.ip + chunkLen (d.strRead d.ip)
  · rw [fetch_none_of_short hshort]
    rw [← hread] at hshort
    exact fetch_none_of_short hshort
  · obtain ⟨i, -, -, hdec⟩ := exists_decode_strBytes d d.ip
    rw [fetch_of_decode (Nat.le_of_not_lt hshort) hdec]
    have hbytes : (d.withStr m).strBytes d.ip (chunkLen (d.strRead d.ip)) = d.strBytes d.ip (chunkLen (d.strRead d.ip)) :=
      strBytes_withStr fun x hx hx' => h x hx hx' (by omega)
    rw [← hbytes, ← hread] at hdec
    rw [← hread] at hshort
    exact fetch_of_decode (Nat.le_of_not_lt hshort) hdec

/-- Settles O20: the same fetch, then the same chunk or the same raise. -/
theorem decReadsOnlyItsChunk : Obligations.DecReadsOnlyItsChunk := by
  intro s m h
  have hfetch : (s.dec.withStr m).fetch = s.dec.fetch := fetch_withStr h
  have hturn : (s.dec.withStr m).turn = s.dec.turn.withStr m := by
    by_cases hbusy : s.dec.status = .busy
    · cases hf : s.dec.fetch with
      | none =>
        rw [DecUnit.turn_of_fetch_none hbusy hf, DecUnit.turn_of_fetch_none (d := s.dec.withStr m) hbusy (hfetch.trans hf)]
        rfl
      | some i =>
        rw [DecUnit.turn_of_fetch_some hbusy hf, DecUnit.turn_of_fetch_some (d := s.dec.withStr m) hbusy (hfetch.trans hf),
          afterChunk_withStr]
    · rw [DecUnit.turn_of_not_busy hbusy, DecUnit.turn_of_not_busy (d := s.dec.withStr m) hbusy]
  refine ⟨_, decTurn_eq s, (decTurn_eq _).trans ?_⟩
  exact congrArg (fun d => Host.Outcome.next { s with dec := d }) hturn

/-! The turns of the two units side by side (R219). -/

/-- ENC as a turn of its own leaves it. -/
def EncUnit.turn (e : EncUnit) : EncUnit := if e.status = .busy then e.step else e

/-- A turn of ENC reads and writes nothing but ENC (R219). -/
theorem encTurn_eq (s : State) : encTurn s = .next { s with enc := s.enc.turn } := by
  unfold encTurn EncUnit.turn
  split_ifs <;> rfl

/-- Settles O39: each turn is a function of its own unit. -/
theorem encAndDecTurnsCommute : Obligations.EncAndDecTurnsCommute := fun s =>
  ⟨_, _, _, encTurn_eq s, decTurn_eq _, decTurn_eq s, encTurn_eq _, rfl, rfl⟩

end Sys2Proof.Machine
end

section
/-! The invariant (10_state.md R43, 40_hash_lut.md R115): it holds after reset, and every turn of every agent keeps it. -/

namespace Sys2Proof.Machine

/-! The colour cache (R115). -/

theorem lutInv_clear : Lut.Inv Lut.clear := fun k => .inl (Lut.read_clear k)

theorem lutInv_write {lut : Lut} (h : Lut.Inv lut) (p : Pixel) : Lut.Inv (Lut.write lut p) := by
  intro k
  rw [Lut.read_write]
  split_ifs with hk
  · exact .inr hk.symm
  · exact h k

/-! ENC. -/

/-- RESET gives a state that meets the invariant when the buffers are canonical (R230, R231). -/
theorem EncUnit.inv_resetUnit {e : EncUnit} (hpix : Memory.wf e.pix) (hstr : Memory.wf e.str) : e.resetUnit.Inv where
  pix_wf := hpix
  str_wf := hstr
  lut := lutInv_clear
  str_written _ hj := absurd hj (Nat.not_lt_zero _)
  busy := nofun
  done := nofun
  faulted := nofun
  noFault _ := rfl
  finfo := rfl

/-- START: the refused one raises InvalidDimensions, the accepted one begins an invocation with no pixel read (R233). -/
theorem EncUnit.inv_start {e : EncUnit} (h : e.Inv) (npixMax : Nat) : (e.start npixMax).Inv := by
  by_cases hbusy : e.status = .busy
  · rwa [EncUnit.start_of_busy hbusy]
  by_cases hbad : e.npix.toNat = 0 ∨ npixMax < e.npix.toNat
  · rw [EncUnit.start_of_rejected hbusy hbad]
    exact { h with busy := nofun, done := nofun, faulted := fun _ => rfl, noFault := fun hne => absurd rfl hne, finfo := rfl }
  · obtain ⟨hzero, hmax⟩ := not_or.mp hbad
    rw [EncUnit.start_of_accepted hbusy (Nat.pos_of_ne_zero hzero) (Nat.le_of_not_lt hmax)]
    exact { EncUnit.inv_resetUnit h.pix_wf h.str_wf with
      busy := fun _ =>
        { i_lt := Nat.pos_of_ne_zero hzero
          run_le := Nat.zero_le _
          run_le_i := Nat.le_refl _
          olen_le := Nat.zero_le _
          prev_eq := rfl
          run_eq := fun j hj => absurd hj (Nat.not_lt_zero _) }
      done := nofun
      faulted := nofun
      noFault := fun _ => rfl }

/-- A BUSY ENC takes no register write but RESET (R36, R37). -/
theorem EncUnit.writeReg_of_busy {e : EncUnit} (h : e.status = .busy) {r : Reg} {v : Word} (hr : r = .ctrl → v.getLsbD 1 = false) :
    e.writeReg r v = e := by
  cases r with
  | ctrl => exact EncUnit.command_of_busy h (hr rfl)
  | npix => exact if_pos h
  | _ => rfl

/-- A write of ENC's bank keeps the invariant: NPIX is bound by nothing in a unit that is not BUSY (R37). -/
theorem EncUnit.inv_writeReg {e : EncUnit} (h : e.Inv) (r : Reg) (v : Word) : (e.writeReg r v).Inv := by
  by_cases hr : r = .ctrl
  · subst hr
    show (e.command (ctrlCommand v)).Inv
    cases ctrlCommand v with
    | reset => exact EncUnit.inv_resetUnit h.pix_wf h.str_wf
    | start => exact EncUnit.inv_start h Config.npixMax
    | nothing => exact h
  by_cases hbusy : e.status = .busy
  · rwa [EncUnit.writeReg_of_busy hbusy fun hctrl => absurd hctrl hr]
  · obtain ⟨n, hn⟩ := EncUnit.writeReg_of_ne_ctrl hr e v
    rw [hn]
    exact { h with busy := fun hb => absurd hb hbusy }

/-- A host load is taken by a unit that is not BUSY only, whose invariant says nothing of its input (R71). -/
theorem EncUnit.inv_loadPix {e : EncUnit} (h : e.Inv) (hbusy : e.status ≠ .busy) (a : Nat) (w : Word) :
    ({ e with pix := Memory.write e.pix a w } : EncUnit).Inv :=
  { h with pix_wf := Memory.write_wf h.pix_wf a w, busy := fun hb => absurd hb hbusy }

/-- The status at the end of a step is BUSY or DONE, and BUSY only with the cursor not at its end (R157, R187). -/
theorem completion_busy_cases (cursor n : Nat) :
    (cursor = n ∧ completion cursor n .busy = .done) ∨ (cursor ≠ n ∧ completion cursor n .busy = .busy) := by
  by_cases h : cursor = n
  · exact .inl ⟨h, completion_eq h _⟩
  · exact .inr ⟨h, completion_ne h _⟩

/-- A completed step keeps the invariant when its branch leaves the cache, the counter and `olen` in their bounds, and the pending pixels
equal to the one just read. -/
theorem EncUnit.inv_finish {e : EncUnit} (h : e.Inv) (hbusy : e.status = .busy) {bytes : List Byte} {run : BitVec 6} {lut : Lut}
    (hlut : Lut.Inv lut) (hrun : run.toNat ≤ 61) (hrun_le : run.toNat ≤ e.i + 1)
    (holen : e.olen + bytes.length ≤ 5 * (e.i + 1 - run.toNat))
    (hpending : ∀ j, j < e.i + 1 → e.i + 1 ≤ j + run.toNat → e.pixRead j = e.pixRead e.i)
    (hlast : e.i + 1 = e.npix.toNat → run = 0) :
    ((e.produced bytes run lut).finish (e.pixRead e.i)).Inv := by
  have hstatus : ((e.produced bytes run lut).finish (e.pixRead e.i)).status = completion (e.i + 1) e.npix.toNat .busy := by
    rw [← hbusy]
    rfl
  have hi := (h.busy hbusy).i_lt
  constructor
  case pix_wf => exact h.pix_wf
  case str_wf => exact Memory.writeList_wf h.str_wf e.olen bytes
  case lut => exact hlut
  case str_written =>
    intro j hj
    have hj' : j < e.olen + bytes.length := hj
    show (Memory.read? (Memory.writeList e.str e.olen bytes) j).isSome = true
    rw [Memory.read?_writeList]
    split_ifs with hnew
    · rfl
    · exact h.str_written j (by omega)
  case busy =>
    intro hb
    rw [hstatus] at hb
    obtain ⟨-, hc⟩ | ⟨hne, -⟩ := completion_busy_cases (e.i + 1) e.npix.toNat
    · simp [hc] at hb
    · exact
        { i_lt := show e.i + 1 < e.npix.toNat by omega
          run_le := hrun
          run_le_i := hrun_le
          olen_le := holen
          prev_eq := rfl
          run_eq := hpending }
  case done =>
    intro hd
    rw [hstatus] at hd
    obtain ⟨heq, -⟩ | ⟨-, hc⟩ := completion_busy_cases (e.i + 1) e.npix.toNat
    · exact hlast heq
    · simp [hc] at hd
  case faulted =>
    intro hf
    exact absurd (hstatus ▸ hf) (completion_ne_fault (by simp) _ _)
  case noFault => exact fun _ => h.noFault (by simp [hbusy])
  case finfo => exact h.finfo

/-- The byte of the pending run is at most one, and none without a run. -/
theorem pendingRunBytes_length (e : EncUnit) : e.pendingRunBytes.length = if e.run.toNat = 0 then 0 else 1 := by
  unfold EncUnit.pendingRunBytes
  split_ifs <;> rfl

/-- A chunk has one to five bytes (R81). -/
theorem instr_length_bounds (i : Instr) : 1 ≤ i.length ∧ i.length ≤ 5 := by
  cases i <;> simp [Instr.length]

/-- The ENC step keeps the invariant, branch by branch. -/
theorem EncUnit.inv_step {e : EncUnit} (h : e.Inv) (hbusy : e.status = .busy) : e.step.Inv := by
  have hb := h.busy hbusy
  have holen := hb.olen_le
  have hrun := hb.run_le
  have hrun_le := hb.run_le_i
  have hzero : (0 : BitVec 6).toNat = 0 := rfl
  have hnone : ∀ j, j < e.i + 1 → e.i + 1 ≤ j + (0 : BitVec 6).toNat → e.pixRead j = e.pixRead e.i := by
    intro j hj hj'
    omega
  obtain ⟨-, -, hp⟩ | ⟨hprev, hmax, hlast, hp⟩ | ⟨-, i, -, -, hp⟩ :=
    process_cases hb.run_le (e.pixRead e.i) (decide (e.i + 1 = e.npix.toNat)) <;> rw [step_of_process hp]
  case inl =>
    refine EncUnit.inv_finish h hbusy h.lut (Nat.zero_le _) (Nat.zero_le _) ?_ hnone fun _ => rfl
    have hlen : (encode (.run (e.run.toNat + 1))).length = 1 := rfl
    omega
  case inr.inl =>
    have hcount := run_succ_toNat hb.run_le
    refine EncUnit.inv_finish h hbusy h.lut (by omega) (by omega) ?_ (fun j hj hj' => ?_) fun hend => absurd hend (of_decide_eq_false hlast)
    · rw [hcount, List.length_nil]
      omega
    · by_cases hji : j = e.i
      · rw [hji]
      · rw [hprev]
        exact hb.run_eq j (by omega) (by omega)
  case inr.inr =>
    refine EncUnit.inv_finish h hbusy (lutInv_write h.lut _) (Nat.zero_le _) (Nat.zero_le _) ?_ hnone fun _ => rfl
    have hlen := (instr_length_bounds i).2
    rw [List.length_append, pendingRunBytes_length, encode_length, hzero]
    split_ifs <;> omega

theorem EncUnit.inv_turn {e : EncUnit} (h : e.Inv) : e.turn.Inv := by
  unfold EncUnit.turn
  split_ifs with hbusy
  · exact EncUnit.inv_step h hbusy
  · exact h

/-! DEC. -/

theorem DecUnit.inv_resetUnit {d : DecUnit} (hpix : Memory.wf d.pix) (hstr : Memory.wf d.str) : d.resetUnit.Inv where
  pix_wf := hpix
  str_wf := hstr
  lut := lutInv_clear
  pix_written _ hj := absurd hj (Nat.not_lt_zero _)
  busy := nofun
  faulted := nofun
  noFault _ := ⟨rfl, rfl⟩

theorem DecUnit.inv_start {d : DecUnit} (h : d.Inv) (npixMax : Nat) : (d.start npixMax).Inv := by
  by_cases hbusy : d.status = .busy
  · rwa [DecUnit.start_of_busy hbusy]
  by_cases hbad : d.npix.toNat = 0 ∨ npixMax < d.npix.toNat
  · rw [DecUnit.start_of_rejected hbusy hbad]
    exact { h with busy := nofun, faulted := fun _ => .inl ⟨rfl, rfl⟩, noFault := fun hne => absurd rfl hne }
  · obtain ⟨hzero, hmax⟩ := not_or.mp hbad
    rw [DecUnit.start_of_accepted hbusy (Nat.pos_of_ne_zero hzero) (Nat.le_of_not_lt hmax)]
    exact { DecUnit.inv_resetUnit h.pix_wf h.str_wf with
      busy := fun _ => { op_lt := Nat.pos_of_ne_zero hzero, ip_le := Nat.zero_le _, prev_eq := rfl }
      faulted := nofun
      noFault := fun _ => ⟨rfl, rfl⟩ }

/-- A BUSY DEC takes no register write but RESET (R36, R37). -/
theorem DecUnit.writeReg_of_busy {d : DecUnit} (h : d.status = .busy) {r : Reg} {v : Word} (hr : r = .ctrl → v.getLsbD 1 = false) :
    d.writeReg r v = d := by
  cases r with
  | ctrl => exact DecUnit.command_of_busy h (hr rfl)
  | npix | ilen => exact if_pos h
  | _ => rfl

/-- A write of DEC's bank keeps the invariant: NPIX and ILEN are bound by nothing in a unit that is not BUSY (R37). -/
theorem DecUnit.inv_writeReg {d : DecUnit} (h : d.Inv) (r : Reg) (v : Word) : (d.writeReg r v).Inv := by
  by_cases hr : r = .ctrl
  · subst hr
    show (d.command (ctrlCommand v)).Inv
    cases ctrlCommand v with
    | reset => exact DecUnit.inv_resetUnit h.pix_wf h.str_wf
    | start => exact DecUnit.inv_start h Config.npixMax
    | nothing => exact h
  by_cases hbusy : d.status = .busy
  · rwa [DecUnit.writeReg_of_busy hbusy fun hctrl => absurd hctrl hr]
  · obtain ⟨n, l, hnl⟩ := DecUnit.writeReg_of_ne_ctrl hr d v
    rw [hnl]
    exact { h with busy := fun hb => absurd hb hbusy }

/-- A host load is taken by a unit that is not BUSY only, whose invariant says nothing of its input (R71). -/
theorem DecUnit.inv_loadStr {d : DecUnit} (h : d.Inv) (hbusy : d.status ≠ .busy) (a : Nat) (b : Byte) :
    ({ d with str := Memory.write d.str a b } : DecUnit).Inv :=
  { h with str_wf := Memory.write_wf h.str_wf a b, busy := fun hb => absurd hb hbusy }

/-- A raise within a step keeps the invariant, with `finfo` the offset of the chunk (R208). -/
theorem DecUnit.inv_raise {d : DecUnit} (h : d.Inv) {code : FaultCode} (hcode : code = .truncatedStream ∨ code = .shapeMismatch) :
    (d.raise code d.ip).Inv :=
  { h with busy := nofun, faulted := fun _ => .inr ⟨hcode, rfl⟩, noFault := fun hne => absurd rfl hne }

/-- A completed chunk keeps the invariant when it has a pixel, its pixels have room and its bytes lie below ILEN. -/
theorem DecUnit.inv_finish {d : DecUnit} (h : d.Inv) (hbusy : d.status = .busy) {px : Pixel} {cnt len : Nat} (hpos : 1 ≤ cnt)
    (hroom : d.op + cnt ≤ d.npix.toNat) (hin : d.ip + len ≤ d.ilen.toNat) : (d.preWrite.finish px cnt len).Inv := by
  have hstatus : (d.preWrite.finish px cnt len).status = completion (d.op + cnt) d.npix.toNat .busy := by
    rw [← hbusy]
    rfl
  have hwritten : ∀ j, d.op ≤ j → j < d.op + cnt → Memory.read? (d.preWrite.finish px cnt len).pix j = some (wordOfPixel px) := by
    intro j hlo hhi
    simp [Memory.read?_fill, hlo, hhi]
  constructor
  case pix_wf => exact Memory.fill_wf h.pix_wf _ _ _
  case str_wf => exact h.str_wf
  case lut => exact lutInv_write h.lut _
  case pix_written =>
    intro j hj
    have hj' : j < d.op + cnt := hj
    by_cases hold : j < d.op
    · have hout : ¬(d.op ≤ j ∧ j < d.op + cnt) := by omega
      simpa [Memory.read?_fill, hout] using h.pix_written j hold
    · rw [hwritten j (by omega) hj']
      rfl
  case busy =>
    intro hb
    rw [hstatus] at hb
    obtain ⟨-, hc⟩ | ⟨hne, -⟩ := completion_busy_cases (d.op + cnt) d.npix.toNat
    · simp [hc] at hb
    · refine { op_lt := show d.op + cnt < d.npix.toNat by omega, ip_le := hin, prev_eq := ?_ }
      have hop : (d.preWrite.finish px cnt len).op ≠ 0 := show d.op + cnt ≠ 0 by omega
      have hlast : Memory.read? (d.preWrite.finish px cnt len).pix (d.op + cnt - 1) = some (wordOfPixel px) :=
        hwritten _ (by omega) (by omega)
      rw [if_neg hop, DecUnit.pixRead, DecUnit.finish_op, DecUnit.preWrite_op, hlast, Option.getD_some, pixelOfWord_wordOfPixel]
      rfl
  case faulted =>
    intro hf
    exact absurd (hstatus ▸ hf) (completion_ne_fault (by simp) _ _)
  case noFault => exact fun _ => h.noFault (by simp [hbusy])

theorem DecUnit.inv_turn {d : DecUnit} (h : d.Inv) : d.turn.Inv := by
  by_cases hbusy : d.status = .busy
  · have hroom := (h.busy hbusy).op_lt
    obtain ⟨code, hcode, hturn⟩ | ⟨px, cnt, len, hpos, hfit, hin, hturn⟩ := DecUnit.turn_cases hbusy <;> rw [hturn]
    · exact DecUnit.inv_raise h hcode
    · exact DecUnit.inv_finish h hbusy hpos (by omega) hin
  · rwa [DecUnit.turn_of_not_busy hbusy]

/-! The machine. -/

/-- The invariant does not read the agenda. -/
theorem State.inv_agenda {s : State} (h : s.Inv) (rest : List Turn) : ({ s with agenda := rest } : State).Inv := ⟨h.enc, h.dec⟩

theorem takeTurn_keeps_inv {turn : Turn} {s t : State} (h : s.Inv) (hturn : takeTurn turn s = .next t) : t.Inv := by
  cases turn with
  | encStep =>
    cases (encTurn_eq s).symm.trans hturn
    exact ⟨EncUnit.inv_turn h.enc, h.dec⟩
  | decStep =>
    cases (decTurn_eq s).symm.trans hturn
    exact ⟨h.enc, DecUnit.inv_turn h.dec⟩
  | writeReg u r v =>
    cases hturn
    cases u with
    | enc => exact ⟨EncUnit.inv_writeReg h.enc r v, h.dec⟩
    | dec => exact ⟨h.enc, DecUnit.inv_writeReg h.dec r v⟩
  | loadPix a w =>
    obtain ⟨hbusy, -, rfl⟩ := hostLoadPix_inversion hturn
    exact ⟨EncUnit.inv_loadPix h.enc hbusy a w, h.dec⟩
  | loadStr a b =>
    obtain ⟨hbusy, -, rfl⟩ := hostLoadStr_inversion hturn
    exact ⟨h.enc, DecUnit.inv_loadStr h.dec hbusy a b⟩
  | hardwareReset =>
    cases hturn
    exact ⟨EncUnit.inv_resetUnit h.enc.pix_wf h.enc.str_wf, DecUnit.inv_resetUnit h.dec.pix_wf h.dec.str_wf⟩

/-- Settles O43: a step is a turn on the state without it. -/
theorem stepKeepsInv : Obligations.StepKeepsInv := by
  intro s t h hstep
  cases hagenda : s.agenda with
  | nil =>
    rw [step_of_nil hagenda] at hstep
    exact takeTurn_keeps_inv h hstep
  | cons turn rest =>
    rw [step_of_cons hagenda] at hstep
    exact takeTurn_keeps_inv (State.inv_agenda h rest) hstep

/-- Settles O42: the reset of both units, with empty buffers. -/
theorem resetMeetsInv : Obligations.ResetMeetsInv :=
  ⟨EncUnit.inv_resetUnit (e := EncUnit.reset) .nil .nil, DecUnit.inv_resetUnit (d := DecUnit.reset) .nil .nil⟩

end Sys2Proof.Machine
end

section
/-! Invocations as iterated turns (70_reset_and_hazards.md R237, R253; 60_exceptions.md R219): whatever the order of the turns, each unit
has made as many turns of its own as the order gave it; and how many a BUSY unit makes at most. -/

namespace Sys2Proof.Machine

/-! A run of the machine, unit by unit. -/

theorem step_of_nil_of_dec_busy {s : State} (hagenda : s.agenda = []) (hbusy : s.dec.status = .busy) :
    step s = .next { s with dec := s.dec.turn } := by
  rw [step_of_nil hagenda, defaultTurn, if_pos hbusy]
  exact decTurn_eq s

theorem step_of_nil_of_dec_not_busy {s : State} (hagenda : s.agenda = []) (hbusy : s.dec.status ≠ .busy) :
    step s = .next { s with enc := s.enc.turn } := by
  rw [step_of_nil hagenda, defaultTurn, if_neg hbusy]
  exact encTurn_eq s

/-- With nothing on the agenda DEC makes every turn while it is BUSY, and once it is not its turns would change nothing. -/
theorem runSteps_dec_of_nil {s : State} (hagenda : s.agenda = []) (k : Nat) : (runSteps k s).dec = DecUnit.turn^[k] s.dec := by
  induction k generalizing s with
  | zero => rfl
  | succ k ih =>
    rw [Function.iterate_succ_apply]
    by_cases hbusy : s.dec.status = .busy
    · rw [runSteps_of_next (step_of_nil_of_dec_busy hagenda hbusy)]
      exact ih (s := { s with dec := s.dec.turn }) hagenda
    · rw [runSteps_of_next (step_of_nil_of_dec_not_busy hagenda hbusy), DecUnit.turn_of_not_busy hbusy]
      exact ih (s := { s with enc := s.enc.turn }) hagenda

/-- With nothing on the agenda and DEC not BUSY, ENC makes every turn. -/
theorem runSteps_enc_of_nil {s : State} (hagenda : s.agenda = []) (hbusy : s.dec.status ≠ .busy) (k : Nat) :
    (runSteps k s).enc = EncUnit.turn^[k] s.enc := by
  induction k generalizing s with
  | zero => rfl
  | succ k ih =>
    rw [Function.iterate_succ_apply, runSteps_of_next (step_of_nil_of_dec_not_busy hagenda hbusy)]
    exact ih (s := { s with enc := s.enc.turn }) hagenda hbusy

/-- R219: after any interleaving each unit has made its own turns, and the other unit's are not seen in it. -/
theorem runSteps_of_interleaving {s : State} {turns rest : List Turn} (hagenda : s.agenda = turns ++ rest)
    (hturns : ∀ t ∈ turns, t = .encStep ∨ t = .decStep) :
    runSteps turns.length s =
      { enc := EncUnit.turn^[turns.count .encStep] s.enc, dec := DecUnit.turn^[turns.count .decStep] s.dec, agenda := rest } := by
  induction turns generalizing s with
  | nil =>
    cases hagenda
    rfl
  | cons turn turns ih =>
    have hstep : step s = takeTurn turn { s with agenda := turns ++ rest } := step_of_cons hagenda
    have hrest : ∀ t ∈ turns, t = .encStep ∨ t = .decStep := fun t ht => hturns t (List.mem_cons_of_mem _ ht)
    obtain rfl | rfl := hturns turn List.mem_cons_self
    · rw [List.length_cons, runSteps_of_next (hstep.trans (encTurn_eq _)), ih rfl hrest, List.count_cons_self,
        List.count_cons_of_ne (by decide), Function.iterate_succ_apply]
    · rw [List.length_cons, runSteps_of_next (hstep.trans (decTurn_eq _)), ih rfl hrest, List.count_cons_self,
        List.count_cons_of_ne (by decide), Function.iterate_succ_apply]

/-! The turns of ENC. -/

theorem EncUnit.turn_of_not_busy {e : EncUnit} (h : e.status ≠ .busy) : e.turn = e := if_neg h

/-- A turn of a BUSY ENC reads one pixel, and ends the invocation at the last one (R156, R157). -/
theorem EncUnit.turn_of_busy {e : EncUnit} (hbusy : e.status = .busy) (hrun : e.run.toNat ≤ 61) :
    e.turn.i = e.i + 1 ∧ e.turn.npix = e.npix ∧ e.turn.status = completion (e.i + 1) e.npix.toNat .busy := by
  obtain ⟨bytes, run, lut, hp⟩ := exists_process_eq hrun (e.pixRead e.i) (decide (e.i + 1 = e.npix.toNat))
  rw [EncUnit.turn, if_pos hbusy, step_of_process hp, ← hbusy]
  exact ⟨rfl, rfl, rfl⟩

/-- R253: a BUSY ENC is BUSY until it has read its last pixel, and then in DONE. -/
theorem EncUnit.status_iterate_turn {e : EncUnit} (h : e.Inv) (hbusy : e.status = .busy) (k : Nat) :
    (k < e.npix.toNat - e.i → (EncUnit.turn^[k] e).status = .busy) ∧
      (e.npix.toNat - e.i ≤ k → (EncUnit.turn^[k] e).status = .done) := by
  have hb := h.busy hbusy
  have hi := hb.i_lt
  induction k generalizing e with
  | zero => exact ⟨fun _ => hbusy, fun hle => by omega⟩
  | succ k ih =>
    rw [Function.iterate_succ_apply]
    obtain ⟨hi', hnpix, hstatus⟩ := EncUnit.turn_of_busy hbusy hb.run_le
    obtain ⟨hlast, hc⟩ | ⟨hmore, hc⟩ := completion_busy_cases (e.i + 1) e.npix.toNat <;> rw [hc] at hstatus
    · rw [Function.iterate_fixed (EncUnit.turn_of_not_busy (by simp [hstatus]))]
      exact ⟨fun hlt => by omega, fun _ => hstatus⟩
    · have hinv := EncUnit.inv_turn h
      obtain ⟨hbefore, hafter⟩ := ih hinv hstatus (hinv.busy hstatus) (hinv.busy hstatus).i_lt
      rw [hi', hnpix] at hbefore hafter
      exact ⟨fun hlt => hbefore (by omega), fun hle => hafter (by omega)⟩

/-! The turns of DEC. -/

/-- An invocation of DEC that has ended, one way or the other. -/
def DecUnit.Ended (d : DecUnit) : Prop := d.status = .done ∨ d.status = .fault

theorem DecUnit.turn_of_ended {d : DecUnit} (h : d.Ended) : d.turn = d := by
  apply DecUnit.turn_of_not_busy
  obtain hs | hs := h <;> simp [hs]

/-- A turn of a BUSY DEC ends the invocation or produces a pixel (R175 to R181). -/
theorem DecUnit.turn_ended_or_progress {d : DecUnit} (hbusy : d.status = .busy) :
    d.turn.Ended ∨ (d.turn.status = .busy ∧ d.turn.npix = d.npix ∧ d.op < d.turn.op) := by
  obtain ⟨code, -, hturn⟩ | ⟨px, cnt, len, hpos, -, -, hturn⟩ := DecUnit.turn_cases hbusy <;> rw [hturn]
  · exact .inl (.inr rfl)
  · have hstatus : (d.preWrite.finish px cnt len).status = completion (d.op + cnt) d.npix.toNat .busy := by
      rw [← hbusy]
      rfl
    obtain ⟨-, hc⟩ | ⟨-, hc⟩ := completion_busy_cases (d.op + cnt) d.npix.toNat <;> rw [hc] at hstatus
    · exact .inl (.inl hstatus)
    · exact .inr ⟨hstatus, rfl, Nat.lt_add_of_pos_right hpos⟩

/-- R253: a BUSY DEC has ended once it has made a turn for each pixel still to produce. -/
theorem DecUnit.iterate_turn_ended {d : DecUnit} (h : d.Inv) (hbusy : d.status = .busy) {k : Nat} (hk : d.npix.toNat - d.op ≤ k) :
    (DecUnit.turn^[k] d).Ended := by
  have hop := (h.busy hbusy).op_lt
  induction k generalizing d with
  | zero => omega
  | succ k ih =>
    rw [Function.iterate_succ_apply]
    obtain hended | ⟨hbusy', hnpix, hop'⟩ := DecUnit.turn_ended_or_progress hbusy
    · rwa [Function.iterate_fixed (DecUnit.turn_of_ended hended)]
    · have hinv := DecUnit.inv_turn h
      refine ih hinv hbusy' ?_ (hinv.busy hbusy').op_lt
      rw [hnpix]
      omega

/-- Settles O44: the default order gives ENC every turn. -/
theorem encInvocationEnds : Obligations.EncInvocationEnds := by
  intro s h hbusy hdec hagenda
  refine ⟨fun k hk => ?_, ?_⟩ <;> rw [runSteps_enc_of_nil hagenda hdec]
  · exact (EncUnit.status_iterate_turn h.enc hbusy k).1 hk
  · exact (EncUnit.status_iterate_turn h.enc hbusy _).2 (Nat.le_refl _)

/-- Settles O45: the default order gives DEC every turn it needs. -/
theorem decInvocationEnds : Obligations.DecInvocationEnds := by
  intro s h hbusy hagenda
  refine ⟨s.dec.npix.toNat - s.dec.op, Nat.le_refl _, ?_⟩
  rw [runSteps_dec_of_nil hagenda]
  exact DecUnit.iterate_turn_ended h.dec hbusy (Nat.le_refl _)

/-- Settles O55: of any order of turns each unit sees the number of its own. -/
theorem invocationsEndUnderEveryInterleaving : Obligations.InvocationsEndUnderEveryInterleaving := by
  intro s turns rest h hagenda hturns
  rw [runSteps_of_interleaving hagenda hturns]
  exact ⟨fun hbusy => EncUnit.status_iterate_turn h.enc hbusy _, fun hbusy hk => DecUnit.iterate_turn_ended h.dec hbusy hk⟩

end Sys2Proof.Machine
end

section
/-! The stream of ENC as a function of the pixels (42_encoder.md R141 to R162): `encodeChunks` lists the chunks that an invocation emits,
`encodes_encodeChunks` ties it to the turns of ENC, and what the spec derives of the stream is then proved of the list. -/

namespace Sys2Proof.Machine

/-! The chunks of a pixel sequence. -/

/-- The chunk of a pending run, if there is one (R145). -/
def pendingRun (run : Nat) : List Instr := if run = 0 then [] else [.run run]

/-- The chunks ENC emits for the pixels that are left, from the `prev`, the cache and the run counter it has reached (R141 to R146). -/
def encodeChunks : Pixel → Lut → Nat → List Pixel → List Instr
  | _, _, _, [] => []
  | prev, lut, run, px :: ps =>
    match (select prev lut px).chunk? px with
    | none => if run + 1 = 62 ∨ ps = [] then .run (run + 1) :: encodeChunks px lut 0 ps else encodeChunks px lut (run + 1) ps
    | some i => pendingRun run ++ i :: encodeChunks px (Lut.write lut px) 0 ps

/-- The bytes of a list of chunks, in order (R55). -/
def chunkBytes (is : List Instr) : List Byte := is.flatMap encode

@[simp] theorem chunkBytes_cons (i : Instr) (is : List Instr) : chunkBytes (i :: is) = encode i ++ chunkBytes is := rfl

@[simp] theorem chunkBytes_append (is js : List Instr) : chunkBytes (is ++ js) = chunkBytes is ++ chunkBytes js := List.flatMap_append

/-- A run is flushed at 62 pixels and at the last pixel (R143). -/
theorem encodeChunks_of_flush {prev px : Pixel} {run : Nat} {ps : List Pixel} (h : px = prev) (hflush : run + 1 = 62 ∨ ps = [])
    (lut : Lut) : encodeChunks prev lut run (px :: ps) = .run (run + 1) :: encodeChunks px lut 0 ps := by
  rw [encodeChunks, select_chunk_of_eq h]
  exact if_pos hflush

/-- Otherwise a pixel equal to `prev` is counted (R143). -/
theorem encodeChunks_of_count {prev px : Pixel} {run : Nat} {ps : List Pixel} (h : px = prev) (hcount : ¬(run + 1 = 62 ∨ ps = []))
    (lut : Lut) : encodeChunks prev lut run (px :: ps) = encodeChunks px lut (run + 1) ps := by
  rw [encodeChunks, select_chunk_of_eq h]
  exact if_neg hcount

/-- Any other pixel has a chunk of its own, after the pending run (R145, R146). -/
theorem encodeChunks_of_chunk {prev px : Pixel} {lut : Lut} {i : Instr} (h : (select prev lut px).chunk? px = some i) (run : Nat)
    (ps : List Pixel) :
    encodeChunks prev lut run (px :: ps) = pendingRun run ++ i :: encodeChunks px (Lut.write lut px) 0 ps := by
  rw [encodeChunks, h]

/-- What the first pixel does to the list of chunks. -/
theorem encodeChunks_cons_cases (prev : Pixel) (lut : Lut) (run : Nat) (px : Pixel) (ps : List Pixel) :
    (px = prev ∧ (run + 1 = 62 ∨ ps = []) ∧ encodeChunks prev lut run (px :: ps) = .run (run + 1) :: encodeChunks px lut 0 ps) ∨
    (px = prev ∧ ¬(run + 1 = 62 ∨ ps = []) ∧ encodeChunks prev lut run (px :: ps) = encodeChunks px lut (run + 1) ps) ∨
    ∃ i, (select prev lut px).chunk? px = some i ∧
      encodeChunks prev lut run (px :: ps) = pendingRun run ++ i :: encodeChunks px (Lut.write lut px) 0 ps := by
  by_cases hprev : px = prev
  · by_cases hflush : run + 1 = 62 ∨ ps = []
    · exact .inl ⟨hprev, hflush, encodeChunks_of_flush hprev hflush lut⟩
    · exact .inr (.inl ⟨hprev, hflush, encodeChunks_of_count hprev hflush lut⟩)
  · obtain ⟨i, hi, -⟩ := select_chunk_of_ne hprev lut
    exact .inr (.inr ⟨i, hi, encodeChunks_of_chunk hi run ps⟩)

/-! The turns of ENC emit these chunks. -/

/-- After `n` turns the invocation of `e` has ended, with `bytes` appended. -/
structure EncUnit.Encodes (e : EncUnit) (n : Nat) (bytes : List Byte) : Prop where
  done : (EncUnit.turn^[n] e).status = .done
  olen : (EncUnit.turn^[n] e).olen = e.olen + bytes.length
  str : (EncUnit.turn^[n] e).str = Memory.writeList e.str e.olen bytes

/-- The first turn appends the bytes of its branch, the later ones the rest. -/
theorem EncUnit.Encodes.of_turn {e : EncUnit} {bs bytes : List Byte} {run : BitVec 6} {lut : Lut} {n : Nat} (hbusy : e.status = .busy)
    (hp : e.process (e.pixRead e.i) (decide (e.i + 1 = e.npix.toNat)) = some (e.produced bs run lut))
    (h : ((e.produced bs run lut).finish (e.pixRead e.i)).Encodes n bytes) : e.Encodes (n + 1) (bs ++ bytes) := by
  have hturn : e.turn = (e.produced bs run lut).finish (e.pixRead e.i) := by rw [EncUnit.turn, if_pos hbusy, step_of_process hp]
  obtain ⟨hdone, holen, hstr⟩ := h
  constructor <;> rw [Function.iterate_succ_apply, hturn]
  · exact hdone
  · rw [holen, List.length_append, ← Nat.add_assoc]
    rfl
  · rw [hstr, Memory.writeList_append]
    rfl

/-- The byte that a broken run flushes is that of the pending run's chunk (R144). -/
theorem chunkBytes_pendingRun {e : EncUnit} (h : e.run.toNat ≤ 61) : chunkBytes (pendingRun e.run.toNat) = e.pendingRunBytes := by
  unfold pendingRun EncUnit.pendingRunBytes
  split_ifs
  · rfl
  · rw [chunkBytes_cons, encode_run (by omega)]
    rfl

/-- R141: from any state between two steps, ENC's turns over the pixels that are left emit the chunks of `encodeChunks`. -/
theorem encodes_encodeChunks {e : EncUnit} {ps : List Pixel} (hstatus : e.status = completion e.i e.npix.toNat .busy)
    (hrun : e.run.toNat ≤ 61) (hlen : e.i + ps.length = e.npix.toNat) (hps : ∀ j (h : j < ps.length), e.pixRead (e.i + j) = ps[j])
    (hend : ps = [] → e.run = 0) : e.Encodes ps.length (chunkBytes (encodeChunks e.prev e.lut e.run.toNat ps)) := by
  induction ps generalizing e with
  | nil => exact ⟨hstatus.trans (completion_eq hlen _), rfl, rfl⟩
  | cons px ps ih =>
    rw [List.length_cons] at hlen
    have hbusy : e.status = .busy := hstatus.trans (completion_ne (by omega) _)
    obtain rfl : e.pixRead e.i = px := hps 0 (Nat.zero_lt_succ _)
    have hlast : e.i + 1 = e.npix.toNat ↔ ps = [] := by
      rw [← List.length_eq_zero_iff]
      omega
    have hnext : ∀ {bs run lut}, run.toNat ≤ 61 → (ps = [] → run = 0) →
        ((e.produced bs run lut).finish (e.pixRead e.i)).Encodes ps.length
          (chunkBytes (encodeChunks (e.pixRead e.i) lut run.toNat ps)) := by
      intro bs run lut hrun' hend'
      refine ih ?_ hrun' (by simpa [EncUnit.produced, Nat.add_assoc, Nat.add_comm 1] using hlen) (fun j hj => ?_) hend'
      · rw [← hbusy]
        rfl
      · have := hps (j + 1) (Nat.succ_lt_succ hj)
        rw [← Nat.add_assoc, Nat.add_right_comm] at this
        exact this
    obtain ⟨hprev, hflush, hp⟩ | ⟨hprev, hmax, hnotLast, hp⟩ | ⟨-, i, hi, -, hp⟩ :=
      process_cases hrun (e.pixRead e.i) (decide (e.i + 1 = e.npix.toNat))
    case inl =>
      rw [decide_eq_true_iff, hlast] at hflush
      rw [encodeChunks_of_flush hprev hflush, chunkBytes_cons]
      exact .of_turn hbusy hp (hnext (Nat.zero_le _) fun _ => rfl)
    case inr.inl =>
      rw [decide_eq_false_iff_not, hlast] at hnotLast
      rw [encodeChunks_of_count hprev (not_or.mpr ⟨hmax, hnotLast⟩), ← run_succ_toNat hrun, ← List.nil_append (chunkBytes _)]
      refine .of_turn hbusy hp (hnext ?_ fun h => absurd h hnotLast)
      rw [run_succ_toNat hrun]
      omega
    case inr.inr =>
      rw [encodeChunks_of_chunk hi, chunkBytes_append, chunkBytes_pendingRun hrun, chunkBytes_cons, ← List.append_assoc]
      exact .of_turn hbusy hp (hnext (Nat.zero_le _) fun _ => rfl)

/-! Launch and result. -/

/-- `n` bytes of ENC's output are the reads at their offsets. -/
theorem EncUnit.strBytes_eq_map (e : EncUnit) (a n : Nat) : e.strBytes a n = (List.range' a n).map e.strRead := by
  induction n generalizing a with
  | zero => rfl
  | succ n ih => rw [EncUnit.strBytes, ih, List.range'_succ, List.map_cons]

/-- Values written from address 0 are read back there, each at its index. -/
theorem map_read_writeList {α : Type} (vs : List α) (free : Nat → α) :
    (List.range' 0 vs.length).map (fun a => (Memory.read? (Memory.writeList [] 0 vs) a).getD (free a)) = vs := by
  refine List.ext_getElem (by simp) fun j hj hj' => ?_
  simp [Memory.read?_writeList, hj']

/-- A pixel count that a unit accepts fits the register NPIX. -/
theorem toNat_ofNat_of_le {n : Nat} (h : n ≤ 4294967295) : (BitVec.ofNat 32 n).toNat = n := by
  rw [BitVec.toNat_ofNat]
  omega

/-- ENC as the host loads it (R235). -/
def encLoaded (ps : List Pixel) : EncUnit :=
  { EncUnit.reset with npix := BitVec.ofNat 32 ps.length, pix := Memory.writeList [] 0 (ps.map wordOfPixel) }

/-- ENC's START on what the host loaded, from the state after reset, makes it BUSY and nothing else (R233). -/
theorem encLaunch_enc {ps : List Pixel} (hne : ps ≠ []) (hmax : ps.length ≤ Config.npixMax) :
    (encLaunch ps).enc = { encLoaded ps with status := .busy } := by
  have hnpix : (encLoaded ps).npix.toNat = ps.length := toNat_ofNat_of_le hmax
  have hpos := List.length_pos_iff.mpr hne
  exact EncUnit.start_of_accepted (e := encLoaded ps) nofun (hnpix ▸ hpos) (hnpix ▸ hmax)

/-- The stream of an invocation (R141): the chunks from START_PIXEL, the cleared cache and no pending run. -/
def stream (ps : List Pixel) : List Byte := chunkBytes (encodeChunks Config.startPixel Lut.clear 0 ps)

/-- The turns of a launched ENC emit the stream. -/
theorem encodes_stream {ps : List Pixel} (hne : ps ≠ []) (hmax : ps.length ≤ Config.npixMax) :
    ({ encLoaded ps with status := .busy } : EncUnit).Encodes ps.length (stream ps) := by
  have hnpix : (encLoaded ps).npix.toNat = ps.length := toNat_ofNat_of_le hmax
  have hpos := List.length_pos_iff.mpr hne
  refine encodes_encodeChunks ?_ (Nat.zero_le _) ?_ (fun j hj => ?_) fun h => absurd h hne
  · exact (completion_ne (show 0 ≠ (encLoaded ps).npix.toNat by omega) _).symm
  · show 0 + ps.length = (encLoaded ps).npix.toNat
    omega
  · show pixelOfWord ((Memory.read? (Memory.writeList [] 0 (ps.map wordOfPixel)) (0 + j)).getD _) = ps[j]
    simp [Memory.read?_writeList, hj]

/-- R141 for a whole invocation. -/
theorem encInvocation_stream {ps : List Pixel} (hne : ps ≠ []) (hmax : ps.length ≤ Config.npixMax) :
    (encInvocation ps).olen = (stream ps).length ∧ (encInvocation ps).result = some (stream ps) := by
  have hrun : encInvocation ps = EncUnit.turn^[ps.length] { encLoaded ps with status := .busy } := by
    rw [← encLaunch_enc hne hmax]
    exact runSteps_enc_of_nil rfl (by simp [encLaunch, State.reset, DecUnit.reset]) ps.length
  obtain ⟨hdone, holen, hstr⟩ := encodes_stream hne hmax
  rw [← hrun] at hdone holen hstr
  have holen' : (encInvocation ps).olen = (stream ps).length := holen.trans (Nat.zero_add _)
  refine ⟨holen', ?_⟩
  rw [EncUnit.result, if_pos hdone, holen', EncUnit.strBytes_eq_map]
  unfold EncUnit.strRead
  rw [hstr]
  exact congrArg some (map_read_writeList _ _)

/-! What the spec derives of the stream. -/

/-- The chunk of a pending run has one byte. -/
theorem chunkBytes_pendingRun_length (run : Nat) : (chunkBytes (pendingRun run)).length = if run = 0 then 0 else 1 := by
  unfold pendingRun
  split_ifs <;> rfl

/-- R159: at most five bytes for a pixel, and one for the run that was pending. -/
theorem chunkBytes_encodeChunks_length_le (ps : List Pixel) (prev : Pixel) (lut : Lut) (run : Nat) :
    (chunkBytes (encodeChunks prev lut run ps)).length ≤ 5 * ps.length + if run = 0 then 0 else 1 := by
  induction ps generalizing prev lut run with
  | nil => exact Nat.zero_le _
  | cons px ps ih =>
    obtain ⟨-, -, h⟩ | ⟨-, -, h⟩ | ⟨i, -, h⟩ := encodeChunks_cons_cases prev lut run px ps <;> rw [h, List.length_cons]
    · have hrest := ih px lut 0
      have hflushed : (encode (.run (run + 1))).length = 1 := rfl
      rw [chunkBytes_cons, List.length_append, hflushed]
      split_ifs at hrest ⊢ <;> omega
    · have hrest := ih px lut (run + 1)
      split_ifs at hrest ⊢ <;> omega
    · have hrest := ih px (Lut.write lut px) 0
      have hlen := instr_length_bounds i
      rw [chunkBytes_append, List.length_append, chunkBytes_pendingRun_length, chunkBytes_cons, List.length_append, encode_length]
      split_ifs at hrest ⊢ <;> omega

/-- R159: at least one byte for 62 pixels, the run that was pending among them. -/
theorem le_chunkBytes_encodeChunks_length {ps : List Pixel} {run : Nat} (hrun : run ≤ 61) (hend : ps = [] → run = 0) (prev : Pixel)
    (lut : Lut) : run + ps.length ≤ 62 * (chunkBytes (encodeChunks prev lut run ps)).length := by
  induction ps generalizing prev lut run with
  | nil => simp [hend rfl]
  | cons px ps ih =>
    obtain ⟨-, -, h⟩ | ⟨-, hcount, h⟩ | ⟨i, -, h⟩ := encodeChunks_cons_cases prev lut run px ps <;> rw [h, List.length_cons]
    · have hrest := ih (Nat.zero_le 61) (fun _ => rfl) px lut
      have hflushed : (encode (.run (run + 1))).length = 1 := rfl
      rw [chunkBytes_cons, List.length_append, hflushed]
      omega
    · obtain ⟨hmax, hlast⟩ := not_or.mp hcount
      have hrest := ih (run := run + 1) (by omega) (fun h => absurd h hlast) px lut
      omega
    · have hrest := ih (Nat.zero_le 61) (fun _ => rfl) px (Lut.write lut px)
      have hlen := instr_length_bounds i
      rw [chunkBytes_append, List.length_append, chunkBytes_pendingRun_length, chunkBytes_cons, List.length_append, encode_length]
      split_ifs <;> omega

/-- Settles O48: both bounds hold of the list of chunks. -/
theorem encodedLengthBounds : Obligations.EncodedLengthBounds := by
  intro ps hne hmax
  rw [(encInvocation_stream hne hmax).1]
  have hupper := chunkBytes_encodeChunks_length_le ps Config.startPixel Lut.clear 0
  have hlower := le_chunkBytes_encodeChunks_length (ps := ps) (Nat.zero_le 61) (fun _ => rfl) Config.startPixel Lut.clear
  rw [if_pos rfl] at hupper
  unfold stream
  omega

/-- The RUN chunks of `n` equal pixels (R143, R161): full ones, and one for the rest. -/
def runChunks (n : Nat) : List Instr := List.replicate (n / 62) (.run 62) ++ if n % 62 = 0 then [] else [.run (n % 62)]

/-- R143: pixels equal to `prev` become RUN chunks of 62 and one for the rest, the pixels already counted among them. -/
theorem encodeChunks_replicate {n run : Nat} (hrun : run ≤ 61) (hend : n = 0 → run = 0) (px : Pixel) (lut : Lut) :
    encodeChunks px lut run (List.replicate n px) = runChunks (run + n) := by
  induction n generalizing run with
  | zero =>
    rw [hend rfl]
    rfl
  | succ n ih =>
    rw [List.replicate_succ]
    by_cases hmax : run + 1 = 62
    · have hdiv : (run + (n + 1)) / 62 = n / 62 + 1 := by omega
      have hmod : (run + (n + 1)) % 62 = n % 62 := by omega
      rw [encodeChunks_of_flush rfl (.inl hmax), ih (Nat.zero_le 61) fun _ => rfl, hmax, Nat.zero_add, runChunks, runChunks, hdiv, hmod,
        List.replicate_succ, List.cons_append]
    by_cases hlast : n = 0
    · subst hlast
      have hdiv : (run + 1) / 62 = 0 := by omega
      have hmod : (run + 1) % 62 = run + 1 := by omega
      rw [List.replicate_zero, encodeChunks_of_flush rfl (.inr rfl), runChunks, Nat.zero_add, hdiv, hmod]
      rfl
    · have hcount : ¬(run + 1 = 62 ∨ List.replicate n px = []) := by simp [hmax, hlast]
      rw [encodeChunks_of_count rfl hcount, ih (by omega) fun h => absurd h hlast, Nat.add_right_comm, Nat.add_assoc]

/-- The bytes of these chunks (R144). -/
theorem chunkBytes_runChunks (n : Nat) :
    chunkBytes (runChunks n) = List.replicate (n / 62) 0xFD ++ if n % 62 = 0 then [] else [BitVec.ofNat 8 (0xC0 + (n % 62 - 1))] := by
  have hfull : ∀ m, chunkBytes (List.replicate m (.run 62)) = List.replicate m 0xFD := by
    intro m
    induction m with
    | zero => rfl
    | succ m ih =>
      rw [List.replicate_succ, chunkBytes_cons, ih]
      rfl
  rw [runChunks, chunkBytes_append, hfull]
  split_ifs
  · rfl
  · rw [chunkBytes_cons, encode_run (by omega)]
    rfl

/-- Settles O47: the pixels are equal to the `prev` that START leaves. -/
theorem startPixelsEncodeAsRuns : Obligations.StartPixelsEncodeAsRuns := by
  intro n hpos hmax
  have hne : List.replicate n Config.startPixel ≠ [] := by simp; omega
  have hlen : (List.replicate n Config.startPixel).length ≤ Config.npixMax := by rwa [List.length_replicate]
  have hstream : stream (List.replicate n Config.startPixel) = chunkBytes (runChunks n) := by
    rw [stream, encodeChunks_replicate (Nat.zero_le 61) fun _ => rfl, Nat.zero_add]
  rw [← chunkBytes_runChunks, ← hstream]
  exact (encInvocation_stream hne hlen).2

end Sys2Proof.Machine
end

section
/-! DEC inverts ENC (43_decoder.md R190; 70_reset_and_hazards.md R247): a chunk that ENC selects is executed to its pixel, and DEC, given
the chunks of `encodeChunks` for the pixels that are left, produces these pixels. The two caches are not equal: DEC's pre-write also stores
START_PIXEL. What holds is that every hit of ENC's cache is one of DEC's, `HitsKept`. -/

namespace Sys2Proof.Machine

/-! One chunk. -/

/-- A DIFF with the wrapped differences to `prev` gives the pixel back (R180). -/
theorem diffPixel_sub8 {prev px : Pixel} (ha : px.a = prev.a) :
    diffPixel prev (sub8 px.r prev.r) (sub8 px.g prev.g) (sub8 px.b prev.b) = px := by
  rw [diffPixel, add8_sub8, add8_sub8, add8_sub8, ← ha]

/-- R247: DEC executes the chunk selected for `px` to `px`, when its `prev` is ENC's and its slot of an INDEX, after the pre-write, too. -/
theorem afterChunk_of_selected {d : DecUnit} {px : Pixel} {lut : Lut} {i : Instr} (hi : (select d.prev lut px).chunk? px = some i)
    (hslot : ∀ k, i = .index k → Lut.read (Lut.write d.lut d.prev) k = Lut.read lut k) :
    d.afterChunk i = d.preWrite.finish px 1 i.length := by
  have hne : px ≠ d.prev := fun heq => by simp [select_chunk_of_eq heq] at hi
  by_cases hhit : Lut.read lut (hash px) = px
  · rw [select_of_hit hne hhit] at hi
    cases hi
    have hpx : Lut.read d.preWrite.lut (hash px) = px := (hslot _ rfl).trans hhit
    show d.preWrite.finish (Lut.read d.preWrite.lut (hash px)) 1 1 = d.preWrite.finish px 1 1
    rw [hpx]
  rw [select_of_miss hne hhit] at hi
  split_ifs at hi with ha
  · have hdiff := diffPixel_sub8 ha
    unfold selectDelta at hi
    dsimp only at hi
    split_ifs at hi <;> cases hi
    · exact congrArg (fun p => d.preWrite.finish p 1 1) hdiff
    · have hluma : lumaPixel d.prev (sub8 px.g d.prev.g) (sub8 px.r d.prev.r - sub8 px.g d.prev.g)
          (sub8 px.b d.prev.b - sub8 px.g d.prev.g) = px := by
        rw [lumaPixel, add_sub_cancel, add_sub_cancel, hdiff]
      exact congrArg (fun p => d.preWrite.finish p 1 2) hluma
    · have hrgb : rgbPixel d.prev px.r px.g px.b = px := by rw [rgbPixel, ← ha]
      exact congrArg (fun p => d.preWrite.finish p 1 4) hrgb
  · cases hi
    rfl

/-- Settles O49: the frame of a completed step, for the pixel that was selected. -/
theorem selectedChunkDecodesToItsPixel : Obligations.SelectedChunkDecodesToItsPixel := by
  rintro _ px lut i s hi rfl hslot
  rw [exec_eq, afterChunk_of_selected hi hslot]
  refine ⟨_, rfl, rfl, rfl, ?_⟩
  simp [Memory.read?_fill]

/-! The two caches. -/

/-- Every pixel that is a hit in `l` is one in `l'`. -/
def HitsKept (l l' : Lut) : Prop := ∀ q, Lut.read l (hash q) = q → Lut.read l' (hash q) = q

/-- LUT.WRITE of one pixel in both caches keeps that. -/
theorem HitsKept.write {l l' : Lut} (h : HitsKept l l') (p : Pixel) : HitsKept (Lut.write l p) (Lut.write l' p) := by
  intro q hq
  rw [Lut.read_write] at hq ⊢
  split_ifs at hq ⊢ with hslot
  · exact hq
  · exact h q hq

/-- So does LUT.WRITE of a pixel in the second that it already holds. -/
theorem HitsKept.write_right {l l' : Lut} {p : Pixel} (h : HitsKept l (Lut.write l' p)) : HitsKept l (Lut.write (Lut.write l' p) p) := by
  rwa [Lut.write_of_hit (Lut.read_write_self l' p)]

/-- The cleared cache hits the zero pixel alone (R117), which is not in the slot of START_PIXEL. -/
theorem hitsKept_clear : HitsKept Lut.clear (Lut.write Lut.clear Config.startPixel) := by
  intro q hq
  rw [Lut.read_clear] at hq
  subst hq
  decide

/-! The stream that DEC still has to read. -/

/-- `bs` are the input bytes from `ip`, and lie below ILEN. -/
structure DecUnit.Reads (d : DecUnit) (bs : List Byte) : Prop where
  bytes : d.strBytes d.ip bs.length = bs
  inside : d.ip + bs.length ≤ d.ilen.toNat

theorem DecUnit.strBytes_eq_map (d : DecUnit) (a n : Nat) : d.strBytes a n = (List.range' a n).map d.strRead := by
  induction n generalizing a with
  | zero => rfl
  | succ n ih => rw [DecUnit.strBytes, ih, List.range'_succ, List.map_cons]

theorem DecUnit.strBytes_add (d : DecUnit) (a m n : Nat) : d.strBytes a (m + n) = d.strBytes a m ++ d.strBytes (a + m) n := by
  rw [DecUnit.strBytes_eq_map, DecUnit.strBytes_eq_map, DecUnit.strBytes_eq_map, ← List.map_append, List.range'_append_1]

/-- A chunk at the head of the stream, and what is left after it. -/
theorem DecUnit.Reads.split {d : DecUnit} {i : Instr} {bs : List Byte} (h : d.Reads (encode i ++ bs)) :
    d.strBytes d.ip i.length = encode i ∧ d.strBytes (d.ip + i.length) bs.length = bs := by
  have hbytes := h.bytes
  rw [List.length_append, encode_length, DecUnit.strBytes_add] at hbytes
  exact List.append_inj hbytes (by rw [strBytes_length, encode_length])

/-- A well-formed chunk at the head of the stream is fetched (R173). -/
theorem DecUnit.Reads.fetch {d : DecUnit} {i : Instr} {bs : List Byte} (h : d.Reads (encode i ++ bs)) (hi : i.wellFormed = true) :
    d.fetch = some i := by
  obtain ⟨hhead, -⟩ := h.split
  obtain ⟨b0, tail, hcons, hlen⟩ := encode_eq_cons hi
  have hinside := h.inside
  rw [List.length_append, encode_length] at hinside
  have hread : d.strRead d.ip = b0 := by
    obtain ⟨n, hn⟩ := Nat.exists_eq_add_one.mpr (instr_length_bounds i).1
    rw [hn, DecUnit.strBytes, hcons] at hhead
    exact (List.cons.inj hhead).1
  rw [← hread] at hlen
  refine fetch_of_decode (rest := []) (by omega) ?_
  rw [hlen, hhead, ← decodeOfEncode i [] hi, List.append_nil]

/-- The chunk executed, the rest of the stream is what DEC reads. -/
theorem DecUnit.Reads.finish {d : DecUnit} {i : Instr} {bs : List Byte} (h : d.Reads (encode i ++ bs)) (px : Pixel) (cnt : Nat) :
    (d.preWrite.finish px cnt i.length).Reads bs := by
  obtain ⟨-, hrest⟩ := h.split
  have hinside := h.inside
  rw [List.length_append, encode_length, ← Nat.add_assoc] at hinside
  refine ⟨?_, hinside⟩
  rw [DecUnit.strBytes_eq_map] at hrest ⊢
  exact hrest

/-! The pixels that DEC has produced. -/

theorem DecUnit.pixels_eq_map (d : DecUnit) (a n : Nat) : d.pixels a n = (List.range' a n).map d.pixRead := by
  induction n generalizing a with
  | zero => rfl
  | succ n ih => rw [DecUnit.pixels, ih, List.range'_succ, List.map_cons]

/-- A completed chunk adds its pixels to those produced before (R183, R186). -/
theorem pixels_finish (d : DecUnit) (px : Pixel) (cnt len : Nat) :
    (d.preWrite.finish px cnt len).pixels 0 (d.op + cnt) = d.pixels 0 d.op ++ List.replicate cnt px := by
  rw [DecUnit.pixels_eq_map, DecUnit.pixels_eq_map, ← List.range'_append_1, List.map_append]
  congr 1
  · refine List.map_congr_left fun j hj => ?_
    have hout : ¬(d.op ≤ j ∧ j < d.op + cnt) := by
      rw [List.mem_range'_1] at hj
      omega
    simp [DecUnit.pixRead, Memory.read?_fill, hout]
  · refine List.eq_replicate_iff.mpr ⟨by simp, fun q hq => ?_⟩
    obtain ⟨j, hj, rfl⟩ := List.mem_map.mp hq
    rw [List.mem_range'_1, Nat.zero_add] at hj
    simp [DecUnit.pixRead, Memory.read?_fill, hj]

/-- After `n` turns the invocation of `d` is complete, with `len` more bytes consumed and `ps` added to the output. -/
structure DecUnit.Decodes (d : DecUnit) (n len : Nat) (ps : List Pixel) : Prop where
  done : (DecUnit.turn^[n] d).status = .done
  ip : (DecUnit.turn^[n] d).ip = d.ip + len
  pixels : (DecUnit.turn^[n] d).pixels 0 (DecUnit.turn^[n] d).op = d.pixels 0 d.op ++ ps

/-- The first turn executes a chunk; the turns after the last chunk change nothing. -/
theorem DecUnit.Decodes.of_turn {d : DecUnit} {px : Pixel} {cnt len n len' : Nat} {ps : List Pixel} (hpos : 1 ≤ cnt)
    (hturn : d.turn = d.preWrite.finish px cnt len) (h : (d.preWrite.finish px cnt len).Decodes n len' ps) :
    d.Decodes (cnt + n) (len + len') (List.replicate cnt px ++ ps) := by
  obtain ⟨hdone, hip, hpixels⟩ := h
  have hiterate : DecUnit.turn^[cnt + n] d = DecUnit.turn^[n] (d.preWrite.finish px cnt len) := by
    obtain ⟨m, rfl⟩ := Nat.exists_eq_add_one.mpr hpos
    rw [Nat.add_right_comm, Function.iterate_succ_apply, hturn, Function.iterate_add_apply,
      Function.iterate_fixed (DecUnit.turn_of_ended (.inl hdone))]
  constructor <;> rw [hiterate]
  · exact hdone
  · rw [hip, ← Nat.add_assoc]
    rfl
  · rw [hpixels, DecUnit.finish_op, DecUnit.preWrite_op, pixels_finish, List.append_assoc]

/-! The chunks of `encodeChunks` one after the other. -/

/-- DEC between two chunks of an invocation, when ENC has reached `prev`, `lut` and `run` with `ps` still to read, and DEC has executed what
ENC has emitted: the pixels of the pending run are DEC's next ones. -/
structure DecUnit.Follows (d : DecUnit) (prev : Pixel) (lut : Lut) (run : Nat) (ps : List Pixel) : Prop where
  status : d.status = completion d.op d.npix.toNat .busy
  prev_eq : d.prev = prev
  hits : HitsKept lut (Lut.write d.lut prev)
  run_le : run ≤ 61
  run_end : ps = [] → run = 0
  count : d.op + run + ps.length = d.npix.toNat
  reads : d.Reads (chunkBytes (encodeChunks prev lut run ps))

/-- A RUN at the head of the stream, with room for its pixels, is executed, and DEC follows ENC again (R178). -/
theorem follows_of_run {d : DecUnit} {lut : Lut} {n : Nat} {ps : List Pixel} (hbusy : d.status = .busy)
    (hhits : HitsKept lut (Lut.write d.lut d.prev)) (hpos : 1 ≤ n) (hmax : n ≤ 62) (hcount : d.op + n + ps.length = d.npix.toNat)
    (hreads : d.Reads (encode (.run n) ++ chunkBytes (encodeChunks d.prev lut 0 ps))) :
    d.turn = d.preWrite.finish d.prev n 1 ∧ (d.preWrite.finish d.prev n 1).Follows d.prev lut 0 ps := by
  constructor
  · rw [DecUnit.turn_of_fetch_some hbusy (hreads.fetch (run_wellFormed hpos hmax)), afterChunk_run, if_neg (by omega)]
  · exact
      { status := by rw [← hbusy]; rfl
        prev_eq := rfl
        hits := hhits.write_right
        run_le := Nat.zero_le 61
        run_end := fun _ => rfl
        count := hcount
        reads := hreads.finish d.prev n }

/-- The slot of a selected INDEX is that of a hit. -/
theorem hit_of_selected_index {prev px : Pixel} {lut : Lut} {k : BitVec 6} (h : (select prev lut px).chunk? px = some (.index k)) :
    k = hash px ∧ Lut.read lut (hash px) = px := by
  cases hsel : select prev lut px <;> rw [hsel] at h <;> cases h
  exact select_index_inversion hsel

/-- A selected chunk at the head of the stream is executed to its pixel, and DEC follows ENC again. -/
theorem follows_of_chunk {d : DecUnit} {px : Pixel} {lut : Lut} {i : Instr} {ps : List Pixel} (hbusy : d.status = .busy)
    (hhits : HitsKept lut (Lut.write d.lut d.prev)) (hcount : d.op + 1 + ps.length = d.npix.toNat)
    (hi : (select d.prev lut px).chunk? px = some i)
    (hreads : d.Reads (encode i ++ chunkBytes (encodeChunks px (Lut.write lut px) 0 ps))) :
    d.turn = d.preWrite.finish px 1 i.length ∧ (d.preWrite.finish px 1 i.length).Follows px (Lut.write lut px) 0 ps := by
  constructor
  · rw [DecUnit.turn_of_fetch_some hbusy (hreads.fetch (selectionStaysInRange d.prev px lut i hi).1)]
    refine afterChunk_of_selected hi ?_
    rintro k rfl
    obtain ⟨rfl, hhit⟩ := hit_of_selected_index hi
    rw [hhit, hhits px hhit]
  · exact
      { status := by rw [← hbusy]; rfl
        prev_eq := rfl
        hits := hhits.write px
        run_le := Nat.zero_le 61
        run_end := fun _ => rfl
        count := hcount
        reads := hreads.finish px 1 }

/-- DEC decodes what ENC emits from `prev`, `lut` and `run` for `ps`: the pixels of the pending run, and `ps`. -/
def DecUnit.DecodesRest (d : DecUnit) (prev : Pixel) (lut : Lut) (run : Nat) (ps : List Pixel) : Prop :=
  d.Decodes (run + ps.length) (chunkBytes (encodeChunks prev lut run ps)).length (List.replicate run prev ++ ps)

/-- A RUN at the head of the stream, and then what follows it. -/
theorem decodes_of_run {d : DecUnit} {lut : Lut} {n : Nat} {ps : List Pixel} (hbusy : d.status = .busy)
    (hhits : HitsKept lut (Lut.write d.lut d.prev)) (hpos : 1 ≤ n) (hmax : n ≤ 62) (hcount : d.op + n + ps.length = d.npix.toNat)
    (hreads : d.Reads (encode (.run n) ++ chunkBytes (encodeChunks d.prev lut 0 ps)))
    (hrest : ∀ {d' : DecUnit}, d'.Follows d.prev lut 0 ps → d'.DecodesRest d.prev lut 0 ps) :
    d.Decodes (n + ps.length) (encode (.run n) ++ chunkBytes (encodeChunks d.prev lut 0 ps)).length (List.replicate n d.prev ++ ps) := by
  obtain ⟨hturn, hnext⟩ := follows_of_run hbusy hhits hpos hmax hcount hreads
  have hdecodes := (hrest hnext).of_turn hpos hturn
  rw [Nat.zero_add] at hdecodes
  rw [List.length_append]
  exact hdecodes

/-- A selected chunk at the head of the stream, and then what follows it. -/
theorem decodesRest_of_chunk {d : DecUnit} {prev px : Pixel} {lut : Lut} {i : Instr} {ps : List Pixel}
    (h : d.Follows prev lut 0 (px :: ps)) (hi : (select prev lut px).chunk? px = some i)
    (hrest : ∀ {d' : DecUnit}, d'.Follows px (Lut.write lut px) 0 ps → d'.DecodesRest px (Lut.write lut px) 0 ps) :
    d.DecodesRest prev lut 0 (px :: ps) := by
  obtain rfl := h.prev_eq
  have hcount := h.count
  have hreads := h.reads
  rw [List.length_cons] at hcount
  rw [encodeChunks_of_chunk hi] at hreads
  obtain ⟨hturn, hnext⟩ := follows_of_chunk (h.status.trans (completion_ne (by omega) _)) h.hits (by omega) hi hreads
  have hdecodes := (hrest hnext).of_turn (Nat.le_refl 1) hturn
  rw [Nat.zero_add, Nat.add_comm 1, ← encode_length, ← List.length_append] at hdecodes
  rw [DecUnit.DecodesRest, encodeChunks_of_chunk hi, Nat.zero_add]
  exact hdecodes

/-- The pixel counted last is the last of the run. -/
theorem replicate_succ_append (run : Nat) (px : Pixel) (ps : List Pixel) :
    List.replicate (run + 1) px ++ ps = List.replicate run px ++ px :: ps := by
  rw [List.replicate_succ', List.append_assoc, List.singleton_append]

/-- The chunk of a pending run comes before those of the same pixels without it (R145). -/
theorem encodeChunks_of_pending {prev px : Pixel} {lut : Lut} {i : Instr} (h : (select prev lut px).chunk? px = some i) {run : Nat}
    (hrun : run ≠ 0) (ps : List Pixel) : encodeChunks prev lut run (px :: ps) = .run run :: encodeChunks prev lut 0 (px :: ps) := by
  rw [encodeChunks_of_chunk h, encodeChunks_of_chunk h, pendingRun, if_neg hrun]
  rfl

/-- R190 from any state between two chunks. -/
theorem decodesRest_of_follows {d : DecUnit} {prev : Pixel} {lut : Lut} {run : Nat} {ps : List Pixel} (h : d.Follows prev lut run ps) :
    d.DecodesRest prev lut run ps := by
  induction ps generalizing d prev lut run with
  | nil =>
    obtain rfl := h.run_end rfl
    exact ⟨h.status.trans (completion_eq h.count _), rfl, (List.append_nil _).symm⟩
  | cons px ps ih =>
    obtain ⟨hstatus, rfl, hhits, hrun, -, hcount, hreads⟩ := h
    rw [List.length_cons] at hcount
    have hbusy : d.status = .busy := hstatus.trans (completion_ne (by omega) _)
    rw [DecUnit.DecodesRest]
    obtain ⟨rfl, hflush, hchunks⟩ | ⟨rfl, hnotFlush, hchunks⟩ | ⟨i, hi, -⟩ := encodeChunks_cons_cases d.prev lut run px ps
    case inl =>
      rw [hchunks, chunkBytes_cons] at hreads ⊢
      have hdecodes := decodes_of_run hbusy hhits (Nat.le_add_left 1 run) (by omega) (by omega) hreads ih
      rwa [replicate_succ_append, Nat.add_right_comm] at hdecodes
    case inr.inl =>
      obtain ⟨hmax, hlast⟩ := not_or.mp hnotFlush
      rw [hchunks] at hreads ⊢
      have hfollows : d.Follows d.prev lut (run + 1) ps :=
        ⟨hstatus, rfl, hhits, by omega, fun h => absurd h hlast, by omega, hreads⟩
      have hdecodes := ih hfollows
      rwa [DecUnit.DecodesRest, replicate_succ_append, Nat.add_right_comm] at hdecodes
    case inr.inr =>
      by_cases hnone : run = 0
      · subst hnone
        exact decodesRest_of_chunk ⟨hstatus, rfl, hhits, hrun, nofun, hcount, hreads⟩ hi ih
      · rw [encodeChunks_of_pending hi hnone, chunkBytes_cons] at hreads ⊢
        exact decodes_of_run hbusy hhits (Nat.pos_of_ne_zero hnone) (by omega) (by rw [List.length_cons]; omega) hreads
          fun hfollows => decodesRest_of_chunk hfollows hi ih

/-! Launch and result. -/

/-- DEC as the host loads it (R235). -/
def decLoaded (n : Nat) (bytes : List Byte) : DecUnit :=
  { DecUnit.reset with
    npix := BitVec.ofNat 32 n
    ilen := BitVec.ofNat 32 bytes.length
    str := Memory.writeList [] 0 bytes }

/-- DEC's START on what the host loaded, from the state after reset, makes it BUSY and nothing else (R233). -/
theorem decLaunch_dec {n : Nat} (hpos : 0 < n) (hmax : n ≤ Config.npixMax) (bytes : List Byte) :
    (decLaunch n bytes).dec = { decLoaded n bytes with status := .busy } := by
  have hnpix : (decLoaded n bytes).npix.toNat = n := toNat_ofNat_of_le hmax
  exact DecUnit.start_of_accepted (d := decLoaded n bytes) nofun (hpos.trans_eq hnpix.symm) (hnpix.trans_le hmax)

/-- A launched DEC has before it what a launched ENC emits. -/
theorem follows_stream {ps : List Pixel} (hne : ps ≠ []) (hmax : ps.length ≤ Config.npixMax)
    (hilen : (stream ps).length ≤ Config.ilenMax) :
    ({ decLoaded ps.length (stream ps) with status := .busy } : DecUnit).Follows Config.startPixel Lut.clear 0 ps := by
  have hnpix : (decLoaded ps.length (stream ps)).npix.toNat = ps.length := toNat_ofNat_of_le hmax
  have hlen : (decLoaded ps.length (stream ps)).ilen.toNat = (stream ps).length := toNat_ofNat_of_le hilen
  have hpos := List.length_pos_iff.mpr hne
  refine ⟨(completion_ne (show 0 ≠ (decLoaded ps.length (stream ps)).npix.toNat by omega) _).symm, rfl, hitsKept_clear, Nat.zero_le 61,
    fun _ => rfl, ?_, ?bytes, ?_⟩
  · show 0 + 0 + ps.length = (decLoaded ps.length (stream ps)).npix.toNat
    omega
  case bytes =>
    rw [DecUnit.strBytes_eq_map]
    exact map_read_writeList _ _
  · show 0 + (stream ps).length ≤ (decLoaded ps.length (stream ps)).ilen.toNat
    omega

/-- R190 for a whole invocation. -/
theorem decInvocation_stream {ps : List Pixel} (hne : ps ≠ []) (hmax : ps.length ≤ Config.npixMax)
    (hilen : (stream ps).length ≤ Config.ilenMax) :
    (decInvocation ps.length (stream ps)).status = .done ∧ (decInvocation ps.length (stream ps)).result = some ps ∧
      (decInvocation ps.length (stream ps)).ip = (stream ps).length := by
  have hrun : decInvocation ps.length (stream ps) =
      DecUnit.turn^[0 + ps.length] { decLoaded ps.length (stream ps) with status := .busy } := by
    rw [← decLaunch_dec (List.length_pos_iff.mpr hne) hmax, Nat.zero_add]
    exact runSteps_dec_of_nil rfl ps.length
  obtain ⟨hdone, hip, hpixels⟩ := decodesRest_of_follows (follows_stream hne hmax hilen)
  rw [← hrun] at hdone hip hpixels
  refine ⟨hdone, ?_, hip.trans (Nat.zero_add _)⟩
  rw [DecUnit.result, if_pos hdone, hpixels]
  rfl

/-- Settles O50: the stream that the one invocation leaves is decoded by the other. -/
theorem decodeInvertsEncode : Obligations.DecodeInvertsEncode := by
  intro ps hne hmax
  obtain ⟨holen, hresult⟩ := encInvocation_stream hne hmax
  rw [holen]
  exact ⟨stream ps, hresult, decInvocation_stream hne hmax⟩

end Sys2Proof.Machine
end

section
/-! FRAME (41_framing.md, R126 to R134): which failure each of its tests raises, and that FILE.DECODE reads back what FILE.ENCODE built. -/

namespace Sys2Proof.Machine

/-! HDR.DECODE. -/

/-- A byte string of another length is no header (R128). -/
theorem hdrDecode_of_length_ne {bs : List Byte} (h : bs.length ≠ 14) : hdrDecode bs = .error (.raised .invalidHeader 0) := by
  unfold hdrDecode
  split
  · exact absurd rfl h
  · rfl

/-- A byte string of fourteen bytes, byte by byte. -/
theorem exists_bytes_of_length {bs : List Byte} (h : bs.length = 14) :
    ∃ m0 m1 m2 m3 w3 w2 w1 w0 h3 h2 h1 h0 ch cs, bs = [m0, m1, m2, m3, w3, w2, w1, w0, h3, h2, h1, h0, ch, cs] := by
  match bs, h with
  | [m0, m1, m2, m3, w3, w2, w1, w0, h3, h2, h1, h0, ch, cs], _ => exact ⟨m0, m1, m2, m3, w3, w2, w1, w0, h3, h2, h1, h0, ch, cs, rfl⟩

theorem dimensionsOk_eq_false {w h : Word} (hbad : w.toInt ≤ 0 ∨ h.toInt ≤ 0) : dimensionsOk w h = false := by
  rw [← Bool.not_eq_true, dimensionsOk_iff]
  omega

/-- R128: four bytes that are all zero, or whose first has its top bit set, are no positive signed number. -/
theorem toInt_append_nonpos {b3 b2 b1 b0 : Byte} (h : [b3, b2, b1, b0] = [0, 0, 0, 0] ∨ b3.msb = true) :
    (b3 ++ b2 ++ b1 ++ b0 : Word).toInt ≤ 0 := by
  show (wordOfPixel ⟨b3, b2, b1, b0⟩).toInt ≤ 0
  obtain h | h := h
  · cases h
    decide
  · rw [BitVec.msb_eq_decide, decide_eq_true_iff] at h
    have hword := (wordOfPixel ⟨b3, b2, b1, b0⟩).isLt
    rw [BitVec.toInt_eq_toNat_cond]
    rw [wordOfPixel_toNat] at hword ⊢
    dsimp only at hword ⊢
    split_ifs <;> omega

/-- Settles O52: the tests one by one, on fourteen bytes. -/
theorem headerDecodeFailures : Obligations.HeaderDecodeFailures := by
  intro bs
  by_cases hlen : bs.length = 14
  case neg =>
    have hfail := hdrDecode_of_length_ne hlen
    exact ⟨fun _ => hfail, fun _ => hfail, fun _ _ => hfail, fun h => absurd h hlen, fun h => absurd h hlen⟩
  obtain ⟨m0, m1, m2, m3, w3, w2, w1, w0, h3, h2, h1, h0, ch, cs, rfl⟩ := exists_bytes_of_length hlen
  refine ⟨fun h => absurd hlen h, fun hmagic => if_pos hmagic, fun hch3 hch4 => ?channels, fun _ hcs0 hcs1 => ?colorSpace,
    fun _ hmagic hch hcs hdims => ?dimensions⟩
  case channels =>
    have hch : ¬(ch = 3 ∨ ch = 4) := not_or.mpr ⟨hch3, hch4⟩
    simp only [hdrDecode, if_pos hch, ite_self]
  case colorSpace =>
    have hcs : ¬(cs = 0 ∨ cs = 1) := not_or.mpr ⟨hcs0, hcs1⟩
    simp only [hdrDecode, if_pos hcs, ite_self]
  case dimensions =>
    have hbad : dimensionsOk (w3 ++ w2 ++ w1 ++ w0) (h3 ++ h2 ++ h1 ++ h0) = false := by
      refine dimensionsOk_eq_false ?_
      obtain hw | hw | hh | hh := hdims
      · exact .inl (toInt_append_nonpos (.inl hw))
      · exact .inl (toInt_append_nonpos (.inr hw))
      · exact .inr (toInt_append_nonpos (.inl hh))
      · exact .inr (toInt_append_nonpos (.inr hh))
    have hmagic' : ¬[m0, m1, m2, m3] ≠ Config.magic := not_not.mpr hmagic
    have hch' : ¬¬(ch = 3 ∨ ch = 4) := not_not.mpr hch
    have hcs' : ¬¬(cs = 0 ∨ cs = 1) := not_not.mpr hcs
    rw [hdrDecode, if_neg hmagic', if_neg hch', if_neg hcs', if_pos hbad]

/-! FILE.ENCODE and FILE.DECODE. -/

/-- What FILE.ENCODE answers is the header, the stream of ENC and the end marker (R131). -/
theorem fileEncode_inversion {h : Header} {ps : List Pixel} {f : List Byte} (hf : fileEncode h ps = .ok f) :
    h.Valid ∧ ps.length = h.pixels ∧ ps.length ≤ Config.npixMax ∧
      ∃ bytes, (encInvocation ps).result = some bytes ∧ f = h.bytes ++ bytes ++ Config.endMarker := by
  unfold fileEncode at hf
  cases hhdr : hdrEncode h with
  | error stop => simp [hhdr] at hf
  | ok hdr =>
    obtain ⟨hvalid, rfl⟩ := hdrEncode_eq_ok_iff.mp hhdr
    simp only [hhdr, ite_error_eq_ok_iff, not_not, not_lt] at hf
    obtain ⟨hshape, hmax, hf⟩ := hf
    refine ⟨hvalid, hshape, hmax, ?_⟩
    cases hresult : (encInvocation ps).result with
    | none => simp [hresult] at hf
    | some bytes => exact ⟨bytes, rfl, by simpa [hresult] using hf.symm⟩

/-- FILE.DECODE of a header, a stream that DEC decodes, and any end marker (R132). -/
theorem fileDecode_of_result {h : Header} {ps : List Pixel} {bytes endBytes : List Byte} (hvalid : h.Valid)
    (hmax : h.pixels ≤ Config.npixMax) (hend : endBytes.length = 8) (hilen : bytes.length ≤ Config.ilenMax)
    (hresult : (decInvocation h.pixels bytes).result = some ps) : fileDecode (h.bytes ++ bytes ++ endBytes) = .ok (h, ps) := by
  have hlen : (h.bytes ++ bytes ++ endBytes).length = 14 + bytes.length + 8 := by
    rw [List.length_append, List.length_append, h.bytes_length, hend]
  have hheader : (h.bytes ++ bytes ++ endBytes).take 14 = h.bytes := by
    rw [List.append_assoc]
    exact List.take_left' h.bytes_length
  have hbody : ((h.bytes ++ bytes ++ endBytes).drop 14).take ((h.bytes ++ bytes ++ endBytes).length - (14 + 8)) = bytes := by
    rw [hlen, List.append_assoc, List.drop_left' h.bytes_length]
    exact List.take_left' (by omega)
  unfold fileDecode
  simp only [Config.headerLen, Config.endLen, hheader, hdrDecode_bytes hvalid, hbody]
  rw [if_neg (by omega), if_neg (by omega), if_neg (Nat.not_lt.mpr hmax), if_neg (Nat.not_lt.mpr hilen), hresult]

/-- A word that is positive as a signed number is positive as a number. -/
theorem toNat_pos_of_toInt_pos {w : Word} (h : 0 < w.toInt) : 0 < w.toNat := by
  rw [BitVec.toInt_eq_toNat_cond] at h
  split_ifs at h <;> omega

/-- A valid header has a pixel (R129). -/
theorem Header.Valid.pixels_pos {h : Header} (hvalid : h.Valid) : 0 < h.pixels := by
  obtain ⟨hw, hh⟩ := dimensionsOk_iff.mp hvalid.dimensions
  exact Nat.mul_pos (toNat_pos_of_toInt_pos hw) (toNat_pos_of_toInt_pos hh)

/-- Settles O54: the stream is what DEC decodes to the pixels, and the header is read back from its bytes. -/
theorem fileRoundTrip : Obligations.FileRoundTrip := by
  intro h ps f hf hlen
  obtain ⟨hvalid, hshape, hmax, bytes, hbytes, rfl⟩ := fileEncode_inversion hf
  have hne : ps ≠ [] := by
    rintro rfl
    exact absurd hvalid.pixels_pos (by rw [← hshape]; simp)
  have hilen : bytes.length ≤ Config.ilenMax := by
    rw [List.length_append, List.length_append, h.bytes_length] at hlen
    have hend : Config.endMarker.length = 8 := rfl
    omega
  obtain ⟨bytes', hbytes', hdec⟩ := decodeInvertsEncode ps hne hmax
  obtain rfl : bytes' = bytes := Option.some.inj (hbytes'.symm.trans hbytes)
  obtain ⟨-, hresult, -⟩ := hdec hilen
  exact fileDecode_of_result hvalid (hshape ▸ hmax) rfl hilen (hshape ▸ hresult)

/-! The failures of FRAME, in the order of its tests (R213). -/

theorem fileEncode_of_error {h : Header} {stop : FrameStop} (hhdr : hdrEncode h = .error stop) (ps : List Pixel) :
    fileEncode h ps = .error stop := by
  simp only [fileEncode, hhdr]

theorem fileEncode_of_shape {h : Header} {ps : List Pixel} {hdr : List Byte} (hhdr : hdrEncode h = .ok hdr)
    (hshape : ps.length ≠ h.pixels) : fileEncode h ps = .error (.raised .shapeMismatch 0) := by
  simp only [fileEncode, hhdr, if_pos hshape]

theorem fileEncode_of_tooMany {h : Header} {ps : List Pixel} {hdr : List Byte} (hhdr : hdrEncode h = .ok hdr)
    (hshape : ps.length = h.pixels) (hmany : Config.npixMax < ps.length) : fileEncode h ps = .error (.raised .invalidDimensions 0) := by
  simp only [fileEncode, hhdr, if_neg (not_not.mpr hshape), if_pos hmany]

theorem fileDecode_of_error {f : List Byte} {stop : FrameStop} (hlen : 14 ≤ f.length) (hhdr : hdrDecode (f.take 14) = .error stop) :
    fileDecode f = .error stop := by
  simp only [fileDecode, Config.headerLen, if_neg (Nat.not_lt.mpr hlen), hhdr]

/-- FILE.DECODE of a file whose header is accepted: the tests after it, in their order. -/
theorem fileDecode_of_header {f : List Byte} {h : Header} (hlen : 14 ≤ f.length) (hhdr : hdrDecode (f.take 14) = .ok h) :
    (f.length < 22 → fileDecode f = .error (.raised .truncatedStream 0)) ∧
    (22 ≤ f.length → Config.npixMax < h.pixels → fileDecode f = .error (.raised .invalidDimensions 0)) ∧
    (Config.ilenMax + 22 < f.length → h.pixels ≤ Config.npixMax → fileDecode f = .error .streamTooLong) := by
  simp only [fileDecode, Config.headerLen, Config.endLen, if_neg (Nat.not_lt.mpr hlen), hhdr]
  refine ⟨fun hshort => if_pos hshort, fun hlong hmany => ?_, fun hlong hmax => ?_⟩
  · rw [if_neg (Nat.not_lt.mpr hlong), if_pos hmany]
  · have hbody : Config.ilenMax < ((f.drop 14).take (f.length - (14 + 8))).length := by
      rw [List.length_take, List.length_drop]
      omega
    rw [if_neg (by omega), if_neg (Nat.not_lt.mpr hmax), if_pos hbody]

/-- Settles O53: each test by the first condition it meets. -/
theorem fileFailures : Obligations.FileFailures := by
  refine ⟨fun h hbad => if_pos hbad, fun h hch hcs hdims => ?dimensions, fun h ps stop hhdr => fileEncode_of_error hhdr ps,
    fun h ps hdr => fileEncode_of_shape, fun h ps hdr => fileEncode_of_tooMany, fun f hshort => if_pos hshort,
    fun f stop => fileDecode_of_error, fun f h hlen hshort hhdr => ?short, fun f h hlong hhdr hmany => ?many,
    fun f h hlong hhdr hmax => ?long⟩
  case dimensions => rw [hdrEncode, if_neg (not_not.mpr ⟨hch, hcs⟩), if_pos (dimensionsOk_eq_false hdims)]
  case short => exact (fileDecode_of_header hlen hhdr).1 hshort
  case many => exact (fileDecode_of_header (by omega) hhdr).2.1 hlong hmany
  case long => exact (fileDecode_of_header (by omega) hhdr).2.2 hlong hmax

end Sys2Proof.Machine
end

section
/-! The host's turns before an invocation (70_reset_and_hazards.md, R235): loading the input buffer one cell a turn is writing the list, and
the register writes after it start the unit. -/

namespace Sys2Proof.Machine

/-- The load of a word below NPIX_MAX, as a step of the machine (R236). -/
theorem step_loadPix {s : State} {a : Nat} {w : Word} {rest : List Turn} (hagenda : s.agenda = .loadPix a w :: rest)
    (hbusy : s.enc.status ≠ .busy) (ha : a < Config.npixMax) :
    step s = .next { s with enc := { s.enc with pix := Memory.write s.enc.pix a w }, agenda := rest } := by
  rw [step_of_cons hagenda]
  exact (if_neg hbusy).trans (if_neg (Nat.not_le.mpr ha))

/-- The load of a byte below ILEN_MAX, as a step of the machine (R236). -/
theorem step_loadStr {s : State} {a : Nat} {b : Byte} {rest : List Turn} (hagenda : s.agenda = .loadStr a b :: rest)
    (hbusy : s.dec.status ≠ .busy) (ha : a < Config.ilenMax) :
    step s = .next { s with dec := { s.dec with str := Memory.write s.dec.str a b }, agenda := rest } := by
  rw [step_of_cons hagenda]
  exact (if_neg hbusy).trans (if_neg (Nat.not_le.mpr ha))

/-- Pixels loaded one by one from index `a` are written as a list. -/
theorem runSteps_loadPix {s : State} {ps : List Pixel} {a : Nat} {rest : List Turn}
    (hagenda : s.agenda = ((ps.zipIdx a).map fun x => Turn.loadPix x.2 (wordOfPixel x.1)) ++ rest) (hbusy : s.enc.status ≠ .busy)
    (hmax : a + ps.length ≤ Config.npixMax) (n : Nat) :
    runSteps (ps.length + n) s =
      runSteps n { s with enc := { s.enc with pix := Memory.writeList s.enc.pix a (ps.map wordOfPixel) }, agenda := rest } := by
  induction ps generalizing s a with
  | nil =>
    cases hagenda
    rw [List.length_nil, Nat.zero_add]
    rfl
  | cons px ps ih =>
    rw [List.length_cons] at hmax
    rw [List.length_cons, Nat.add_right_comm, runSteps_of_next (step_loadPix hagenda hbusy (by omega))]
    exact ih rfl hbusy (by omega)

/-- Bytes loaded one by one from offset `a` are written as a list. -/
theorem runSteps_loadStr {s : State} {bytes : List Byte} {a : Nat} {rest : List Turn}
    (hagenda : s.agenda = ((bytes.zipIdx a).map fun x => Turn.loadStr x.2 x.1) ++ rest) (hbusy : s.dec.status ≠ .busy)
    (hmax : a + bytes.length ≤ Config.ilenMax) (n : Nat) :
    runSteps (bytes.length + n) s =
      runSteps n { s with dec := { s.dec with str := Memory.writeList s.dec.str a bytes }, agenda := rest } := by
  induction bytes generalizing s a with
  | nil =>
    cases hagenda
    rw [List.length_nil, Nat.zero_add]
    rfl
  | cons b bytes ih =>
    rw [List.length_cons] at hmax
    rw [List.length_cons, Nat.add_right_comm, runSteps_of_next (step_loadStr hagenda hbusy (by omega))]
    exact ih rfl hbusy (by omega)

/-- Settles O46: the loads, then the writes of the configuration and of START, on units in IDLE. -/
theorem hostTurnsLaunchInvocation : Obligations.HostTurnsLaunchInvocation := by
  refine ⟨fun ps hmax => ?enc, fun n bytes _ hilen => ?dec⟩
  case enc =>
    refine (runSteps_loadPix (a := 0) rfl (by simp [State.reset, EncUnit.reset]) (by omega) 2).trans ?_
    rfl
  case dec =>
    refine (runSteps_loadStr (a := 0) rfl (by simp [State.reset, DecUnit.reset]) (by omega) 3).trans ?_
    rfl

end Sys2Proof.Machine
end

section
/-! The rules of the colour cache, of the register banks, of the host's port and of the turns that are read off one definition each
(00_scope.md, 10_state.md, 40_hash_lut.md, 70_reset_and_hazards.md). -/

namespace Sys2Proof.Machine

/-! The hash and the colour cache. -/

/-- R110: the slot number, written out. -/
theorem hash_toNat (p : Pixel) : (hash p).toNat = (p.r.toNat * 3 + p.g.toNat * 5 + p.b.toNat * 7 + p.a.toNat * 11) % 64 := by
  rw [hash, BitVec.toNat_ofNat]
  exact Nat.mod_mod _ 64

/-- Reading a byte as signed changes it by a multiple of 256, so not modulo 64. -/
theorem toInt_emod_64 (b : Byte) : b.toInt % 64 = b.toNat % 64 := by
  rw [BitVec.toInt_eq_toNat_cond]
  split_ifs <;> omega

/-- Settles O7: the weighted sum modulo 64 is that of the channels modulo 64. -/
theorem hashNeedsOnlySixBits : Obligations.HashNeedsOnlySixBits := by
  refine ⟨fun p q hr hg hb ha => ?_, fun p => ?_⟩
  · rw [← BitVec.toNat_inj, hash_toNat, hash_toNat]
    omega
  · have hr := toInt_emod_64 p.r
    have hg := toInt_emod_64 p.g
    have hb := toInt_emod_64 p.b
    have ha := toInt_emod_64 p.a
    rw [hash_toNat]
    omega

/-- Settles O8: the slot of LUT.WRITE is the one whose number is the hash. -/
theorem lutWriteStoresAtHash : Obligations.LutWriteStoresAtHash := by
  intro lut p k
  simp only [Lut.read_write, ← hash_toNat, BitVec.toNat_inj]

/-- Settles O9: every slot of a cleared cache reads the zero pixel. -/
theorem freshLutHitsOnlyZeroPixel : Obligations.FreshLutHitsOnlyZeroPixel := by
  refine ⟨fun p => ?_, fun lut p => (Lut.hit_iff _ p).mpr (Lut.read_write_self lut p)⟩
  rw [Lut.hit_iff, Lut.read_clear]
  exact eq_comm

/-! Turns. -/

/-- Settles O17: the head of the agenda is the turn, and DEC's turn executes what it fetches. -/
theorem stepRunsDecodedChunk : Obligations.StepRunsDecodedChunk := by
  refine ⟨fun s rest => ⟨step_of_cons, step_of_cons, fun u r v => step_of_cons, fun a w => step_of_cons, fun a b => step_of_cons,
    step_of_cons, fun hagenda hbusy => ?decDefault, fun hagenda hbusy => ?encDefault⟩, fun s i rest hbusy hfit hdec => ?chunk⟩
  case decDefault => rw [step_of_nil hagenda, defaultTurn, if_pos hbusy]; rfl
  case encDefault => rw [step_of_nil hagenda, defaultTurn, if_neg hbusy]; rfl
  case chunk =>
    have hfetch := fetch_of_decode hfit hdec
    refine ⟨fun hagenda => ?_, fun hagenda => ?_⟩
    · rw [step_of_cons hagenda]
      exact decTurn_some hbusy hfetch
    · rw [step_of_nil hagenda, defaultTurn, if_pos hbusy]
      exact decTurn_some hbusy hfetch

/-- Settles O33: the reset of a unit depends on its buffers alone. -/
theorem resetState : Obligations.ResetState := by
  intro s hencPix hencStr hdecStr hdecPix hagenda
  rw [State.hardwareReset, EncUnit.resetUnit, DecUnit.resetUnit, hencPix, hencStr, hdecStr, hdecPix, hagenda]
  rfl

/-! The register banks. -/

/-- Settles O35: a BUSY unit takes no write but RESET, and a bank is one unit's. -/
theorem busyUnitIgnoresWrites : Obligations.BusyUnitIgnoresWrites := by
  intro s r v hr
  refine ⟨fun hbusy => ?_, fun hbusy => ?_, rfl, rfl⟩
  · rw [State.writeReg, EncUnit.writeReg_of_busy hbusy hr]
  · rw [State.writeReg, DecUnit.writeReg_of_busy hbusy hr]

/-- Settles O36: register by register, each write by the branch of its register. -/
theorem configRegistersReadBack : Obligations.ConfigRegistersReadBack := by
  intro s v
  refine ⟨fun hbusy => ?enc, fun hbusy => ?dec, rfl, rfl, fun u r hr => ?readOnly⟩
  case enc =>
    have hnpix : s.enc.writeReg .npix v = { s.enc with npix := v } := if_neg hbusy
    rw [State.writeReg, hnpix]
    exact ⟨rfl, rfl⟩
  case dec =>
    have hnpix : s.dec.writeReg .npix v = { s.dec with npix := v } := if_neg hbusy
    have hilen : s.dec.writeReg .ilen v = { s.dec with ilen := v } := if_neg hbusy
    rw [State.writeReg, State.writeReg, hnpix, hilen]
    exact ⟨rfl, rfl, rfl, rfl⟩
  case readOnly =>
    cases u <;> obtain rfl | rfl | rfl | rfl | rfl := hr <;> rfl

/-- A number that fits 32 bits is shown as it is (R31, R35). -/
theorem natReg_toNat {n : Nat} (h : n < 2 ^ 32) : (natReg n).toNat = n := by
  rw [natReg, if_pos h, BitVec.toNat_ofNat, Nat.mod_eq_of_lt h]

/-- Settles O37: the two enumerations value by value, and the numbers as `natReg` shows them. -/
theorem readOnlyRegisters : Obligations.ReadOnlyRegisters := by
  have hstatus : ∀ st : Status, (st.bits.setWidth 32).toNat = match st with | .idle => 0 | .busy => 1 | .done => 2 | .fault => 3 := by
    intro st
    cases st <;> rfl
  have hfault : ∀ code : FaultCode, (code.bits.setWidth 32).toNat = match code with
      | .noFault => 0 | .invalidHeader => 1 | .invalidDimensions => 2 | .truncatedStream => 3 | .shapeMismatch => 4
      | .invalidDelta => 5 := by
    intro code
    cases code <;> rfl
  exact fun s => ⟨⟨rfl, rfl⟩, hstatus _, hstatus _, hfault _, hfault _, natReg_toNat, natReg_toNat, natReg_toNat, natReg_toNat,
    natReg_toNat, natReg_toNat⟩

/-! The host's port. -/

/-- Settles O40: the two tests of a load in their order, and the memory after a write. -/
theorem hostLoads : Obligations.HostLoads := by
  intro s a w b
  refine ⟨fun hbusy => if_pos hbusy, fun hbusy => if_pos hbusy, fun hbusy ha => (if_neg hbusy).trans (if_pos ha),
    fun hbusy ha => (if_neg hbusy).trans (if_pos ha), fun hbusy ha => ⟨Memory.write s.enc.pix a w, ?pix, ?_⟩,
    fun hbusy ha => ⟨Memory.write s.dec.str a b, ?str, ?_⟩⟩
  case pix => exact (if_neg hbusy).trans (if_neg (Nat.not_le.mpr ha))
  case str => exact (if_neg hbusy).trans (if_neg (Nat.not_le.mpr ha))
  · exact fun x => Memory.read?_write s.enc.pix a x w
  · exact fun x => Memory.read?_write s.dec.str a x b

/-- Settles O41: the result of a unit in DONE is its reads from 0 on, one by one. -/
theorem resultReadableInDoneOnly : Obligations.ResultReadableInDoneOnly := by
  refine ⟨fun e => ⟨fun h => if_neg h, fun h => ⟨_, if_pos h, ?encLength, ?encBytes⟩⟩,
    fun d => ⟨fun h => if_neg h, fun h => ⟨_, if_pos h, ?decLength, ?decPixels⟩⟩⟩
  case encLength => simp [EncUnit.strBytes_eq_map]
  case encBytes => simp [EncUnit.strBytes_eq_map]
  case decLength => simp [DecUnit.pixels_eq_map]
  case decPixels => simp [DecUnit.pixels_eq_map]

end Sys2Proof.Machine
end
